-- ==== Sys2Proof/Word.lean ====
section
/-! DEFINITION. The widths of the block's words (00_scope R10, R16; 10_state R21; 20_memory R51). -/

namespace Sys2Proof

/-- One byte of a byte sequence. -/
abbrev Byte := BitVec 8

/-- One register word: every bus access moves exactly 32 bits (20_memory R52). -/
abbrev Word := BitVec 32

/-- COUNTER, BINNED and CODE (10_state R28, R32, R33). -/
abbrev Quad := BitVec 64

/-- KEY and DIGEST (10_state R29, R30). -/
abbrev Wide := BitVec 256

/-- The port's `addr`: the word index, offset[7:2] (20_memory R51). -/
abbrev WordIndex := BitVec 6

/-- `le32(b0, b1, b2, b3)` (00_scope R17). -/
def le32 (b0 b1 b2 b3 : Byte) : Word := b3 ++ b2 ++ b1 ++ b0

end Sys2Proof
end

