-- ==== Sys2Proof/Syntax.lean ====
section
/-! DEFINITION. What the host can present to the block: the commands and transactions of the opcode table
(30_encoding R70 to R77), the registers of the map (20_memory R55) and a request by host address. -/

namespace Sys2Proof

/-- The commands that have a completion: the values of `pend_op` (10_state R21). -/
inductive Op where
  | gen
  | hash
  | trunc
  | reduce
  | zeroize
  deriving DecidableEq, Repr, Inhabited

/-- One constructor per row of the opcode table. The six CMD32 rows carry no operand (30_encoding R73). `rd32` keeps no
data field: the data bits of a read are ignored (30_encoding R77). -/
inductive Instr where
  | nop
  | gen
  | hash
  | trunc
  | reduce
  | zeroize
  | rd32 (addr : WordIndex)
  | wr32 (addr : WordIndex) (data : Word)
  deriving DecidableEq, Repr

/-- An encoded row of the opcode table: a command word, which is a write of that word to CMD (30_encoding R70, R79), or
a bus transaction `we ++ addr ++ data` (30_encoding R77). -/
inductive BusWord where
  | cmd32 (w : BitVec 32)
  | bus39 (w : BitVec 39)
  deriving DecidableEq, Repr

/-- The registers of the map of 20_memory R55. An index with no register is reserved. `key`, `digest`: KEYi, DIGESTi. -/
inductive Reg where
  | id
  | ctrl
  | cmd
  | status
  | ctrLo
  | ctrHi
  | offset
  | key (i : BitVec 3)
  | digest (i : BitVec 3)
  | binnedLo
  | binnedHi
  | codeLo
  | codeHi
  deriving DecidableEq, Repr

/-- Who presents a request: the one bus master of 10_state R20, or another (20_memory R67). -/
inductive Master where
  | host
  | other
  deriving DecidableEq, Repr

/-- A request in the terms of a host that can also express what the port cannot: another width, an unaligned offset, an
address outside the window, a second master (20_memory R50, R52, R67). -/
structure HostRequest where
  master : Master
  /-- the host's byte address; the block's offset is `addr - BLOCK_BASE` -/
  addr : Nat
  /-- the width of the access in bytes -/
  width : Nat
  write : Bool
  data : Word
  deriving DecidableEq, Repr

end Sys2Proof
end

