-- ==== Sys2Proof/Config.lean ====
section
/-! DEFINITION. The parameters of the block (00_scope R10, R11, R15; 20_memory R50) and the values the spec leaves open.
A constant declared `opaque` has no known value: no proof can see one. -/

namespace Sys2Proof.Config

/-- `OFFSET_MOD` (00_scope R11). -/
def offsetMod : Nat := 28

/-- `OFFSET_BYTE`, the index of the last digest byte (00_scope R11). -/
def offsetByte : Nat := 31

/-- `MASK0` (00_scope R11). -/
def mask0 : Byte := 0x7F

/-- `MASKREST` (00_scope R11). -/
def maskRest : Byte := 0xFF

/-- `MODULUS`, 10^11 (00_scope R11). -/
def modulus : Quad := 100000000000

/-- `CODE_DIGITS` (00_scope R10). -/
def codeDigits : Nat := 11

/-- The constant the ID register reads as (10_state R24). -/
def idValue : Word := 0x424F5450

/-- `BLOCK_BASE`, the open base address of the window in the host's address map (20_memory R50; log 8). -/
opaque blockBase : Nat

/-- `LAT_GEN` .. `LAT_ZEROIZE`, in clock cycles, each at least 1; "No rule of the model depends on their values"
(00_scope R15), so nothing reads them (log 8). -/
opaque latency : Op → ℕ+

/-- What `pend_op` holds after a reset, which the spec leaves unspecified (70_reset R200): a fresh free value for every
count (log 2). -/
opaque freeOp : Nat → Op

/-- What a 64-bit count of `n` elapsed seconds holds when `n` does not fit in 64 bits: 60_exceptions R178 states no
result there (log 10). -/
opaque freeElapsed : Nat → Quad

end Sys2Proof.Config
end

