-- ==== Sys2Proof/WellFormed.lean ====
section
/-! DEFINITION. What the port can carry: the checks of 20_memory R50, R52, R53 and R67 on a host's request. -/

namespace Sys2Proof

/-- Every instruction is well-formed: the widths of its fields are those of the port, so "misalignment cannot be
presented at the port" (20_memory R53) and a command has no operand (30_encoding R73). -/
def Instr.wf : Instr → Bool
  | .nop => true
  | .gen => true
  | .hash => true
  | .trunc => true
  | .reduce => true
  | .zeroize => true
  | .rd32 _ => true
  | .wr32 _ _ => true

namespace HostRequest

/-- There is one bus master (20_memory R67). -/
def masterOk (r : HostRequest) : Bool := r.master = .host

/-- Every access moves exactly 32 bits (20_memory R52). -/
def widthOk (r : HostRequest) : Bool := r.width = 4

/-- The address lies in the 256-byte window at `BLOCK_BASE` (20_memory R50). -/
def inWindow (r : HostRequest) : Bool := Config.blockBase ≤ r.addr ∧ r.addr < Config.blockBase + 256

/-- The byte offset in the window (20_memory R50). -/
def off (r : HostRequest) : Nat := r.addr - Config.blockBase

/-- The offset is a multiple of 4 (20_memory R52). -/
def aligned (r : HostRequest) : Bool := r.off % 4 = 0

/-- The request can be presented at the port. -/
def wf (r : HostRequest) : Bool := r.masterOk && r.widthOk && r.inWindow && r.aligned

end HostRequest

end Sys2Proof
end

