-- ==== Sys2Proof/Decode.lean ====
section
/-! DEFINITION. The command word and the transaction word, decoded and encoded (30_encoding R70 to R77). -/

namespace Sys2Proof

/-- What the block makes of a word written to CMD (30_encoding R76). -/
inductive CmdDecode where
  | illegal
  | nop
  | op (o : Op)
  deriving DecidableEq, Repr

/-- Why bits are no instruction of the opcode table. -/
inductive DecodeError where
  /-- a command word with a nonzero bit in 31:4 (30_encoding R70) -/
  | reservedBits
  /-- a command word with OP in 0x6..0xF (30_encoding R71) -/
  | unassignedOp
  /-- the number has a bit set above the word's width -/
  | tooWide
  /-- no format of the opcode table has that length (30_encoding R75, R77) -/
  | noSuchLength
  deriving DecidableEq, Repr

/-- The OP field (30_encoding R70). -/
def opField (w : Word) : Nat := (w.extractLsb' 0 4).toNat

/-- The RSV field (30_encoding R70). -/
def rsvField (w : Word) : BitVec 28 := w.extractLsb' 4 28

/-- The decoder of 30_encoding R76, total over every word and mode. -/
def decodeCmd (w : Word) (diag : Bool) : CmdDecode :=
  if rsvField w ≠ 0 then .illegal
  else match opField w with
    | 0 => .nop
    | 1 => .op .gen
    | 2 => if diag then .op .hash else .illegal
    | 3 => if diag then .op .trunc else .illegal
    | 4 => if diag then .op .reduce else .illegal
    | 5 => .op .zeroize
    | _ => .illegal

/-- The command's instruction. -/
def Op.instr : Op → Instr
  | .gen => .gen
  | .hash => .hash
  | .trunc => .trunc
  | .reduce => .reduce
  | .zeroize => .zeroize

/-- The transaction a BUS39 word stands for: every 39-bit word is one (30_encoding R77). -/
def busInstr (w : BitVec 39) : Instr :=
  if w.getLsbD 38 then .wr32 (w.extractLsb' 32 6) (w.extractLsb' 0 32) else .rd32 (w.extractLsb' 32 6)

/-- The instruction an encoded word stands for. A command word is read with every assigned code present; whether its
mode admits it is the meaning's question (30_encoding R72). -/
def decode : BusWord → Except DecodeError Instr
  | .cmd32 w =>
    match decodeCmd w true with
    | .nop => .ok .nop
    | .op o => .ok o.instr
    | .illegal => .error (if rsvField w ≠ 0 then .reservedBits else .unassignedOp)
  | .bus39 w => .ok (busInstr w)

/-- The encoded word of a length and a number, as the opcode table numbers its bits: 32 bits for CMD32, 39 bits (or the
40 of five whole bytes, bit 39 zero) for BUS39. -/
def busWord (nbits w : Nat) : Except DecodeError BusWord :=
  if nbits = 32 then
    if w < 2 ^ 32 then .ok (.cmd32 (BitVec.ofNat 32 w)) else .error .tooWide
  else if nbits = 39 ∨ nbits = 40 then
    if w < 2 ^ 39 then .ok (.bus39 (BitVec.ofNat 39 w)) else .error .tooWide
  else .error .noSuchLength

/-- The decoder on any length and number. -/
def decodeBits (nbits w : Nat) : Except DecodeError Instr :=
  match busWord nbits w with
  | .ok b => decode b
  | .error e => .error e

/-- The instruction the decoder reads from an instruction whose bits are `w`, numbered as the opcode table does. -/
def decodeTableWord (nbits w : Nat) : Option Instr :=
  match decodeBits nbits w with
  | .ok i => some i
  | .error _ => none

/-- The word of each command (30_encoding R71). -/
def Op.word : Op → Word
  | .gen => 0x00000001
  | .hash => 0x00000002
  | .trunc => 0x00000003
  | .reduce => 0x00000004
  | .zeroize => 0x00000005

/-- The word of NOP (30_encoding R71). -/
def nopWord : Word := 0x00000000

/-- `we ++ addr ++ data` (30_encoding R77). -/
def busBits (we : Bool) (addr : WordIndex) (data : Word) : BitVec 39 := BitVec.ofBool we ++ addr ++ data

/-- The words of an instruction, from the encoding tables of 30_encoding R71 and R77. -/
def encode : Instr → BusWord
  | .nop => .cmd32 nopWord
  | .gen => .cmd32 Op.gen.word
  | .hash => .cmd32 Op.hash.word
  | .trunc => .cmd32 Op.trunc.word
  | .reduce => .cmd32 Op.reduce.word
  | .zeroize => .cmd32 Op.zeroize.word
  | .rd32 addr => .bus39 (busBits false addr 0)
  | .wr32 addr data => .bus39 (busBits true addr data)

end Sys2Proof
end

