-- ==== Sys2Proof/Machine/State.lean ====
section
/-! DEFINITION. The state of the block (10_state R21), its ports (20_memory R51), and what can stop a step. -/

namespace Sys2Proof.Machine

/-- `phase` (10_state R21, R23). -/
inductive Phase where
  | idle
  | busy
  deriving DecidableEq, Repr

/-- What the world outside the block does next. A state lists its inputs in the order in which they take effect, so
every interleaving of host and engine is some state's list (20_memory R60, 42_commands R140; log 3). -/
inductive Input where
  /-- the host presents an encoded word at the port (sel = 1) -/
  | port (w : BusWord)
  /-- a bus master asks for an access by host address, width and offset -/
  | request (r : HostRequest)
  /-- a cycle in which nothing is presented (sel = 0) -/
  | idle
  /-- the engine's turn: it completes the pending command, if there is one -/
  | engine
  /-- the level of `rst_n` at the next rising edge -/
  | rst (level : Bool)
  deriving DecidableEq, Repr

/-- What stops the machine with a fault. The block itself raises no trap (60_exceptions R170). -/
inductive Fault where
  /-- Raised by a request to a host address outside the block's window: "The block has no instruction space, no data
  memory and no I/O space besides this window" (20_memory R50). Safe: the run stops. -/
  | outsideWindow
  deriving DecidableEq, Repr

/-- What the machine gives no meaning to. -/
inductive Refusal where
  /-- An instruction with no meaning yet. Raised by `exec` alone. Safe: the run stops. -/
  | notModelled (mnemonic : String)
  /-- A request by a second bus master: "a model refuses a second master" (20_memory R67). Safe: the run stops. -/
  | secondMaster
  /-- A request of a width other than 32 bits (20_memory R52). Safe: the run stops. -/
  | accessWidth
  /-- A request at a byte offset that is not a multiple of 4 (20_memory R52). Safe: the run stops. -/
  | misalignedOffset
  /-- A run that does not start from reset (70_reset R202: "it refuses such a launch"). Safe: the run stops. -/
  | launchedWithoutReset
  deriving DecidableEq, Repr

/-- The state. The fields from `ctrl` to `pendOp` are the tuple of 10_state R21, with STATUS held as `done`, `errCmd`,
`errBusy` and its BUSY bit read from `phase` (10_state R34). The others are the ports and the model's own. -/
structure State where
  /-- CTRL: bit 0 DIAG_EN, bit 1 IRQ_EN (10_state R25) -/
  ctrl : BitVec 2
  /-- STATUS.DONE (10_state R27) -/
  done : Bool
  /-- STATUS.ERR_CMD (10_state R27) -/
  errCmd : Bool
  /-- STATUS.ERR_BUSY (10_state R27) -/
  errBusy : Bool
  /-- COUNTER (10_state R28) -/
  counter : Quad
  /-- KEY (10_state R29) -/
  key : Wide
  /-- DIGEST (10_state R30) -/
  digest : Wide
  /-- OFFSET (10_state R31) -/
  offset : BitVec 5
  /-- BINNED (10_state R32) -/
  binned : Quad
  /-- CODE (10_state R33) -/
  code : Quad
  /-- phase (10_state R34) -/
  phase : Phase
  /-- pend_op (10_state R34): read by no rule while `phase` is idle -/
  pendOp : Op
  /-- the port `rdata` (20_memory R51): `some` the word a read presented last, `none` while it is not valid (log 4) -/
  rdata : Option Word
  /-- the level of the pin `rst_n` (20_memory R51, 70_reset R200) -/
  rstN : Bool
  /-- the model's own: the block has been reset since power-up (70_reset R202; log 5) -/
  everReset : Bool
  /-- the model's own: the inputs to come, the next one first (log 3) -/
  inbox : List Input
  /-- the model's own: how many free values have been drawn (log 2) -/
  freeCount : Nat
  deriving DecidableEq, Repr

/-- The machine right after reset, with `rst_n` released and nothing presented yet (70_reset R200, R201). `pendOp` is
DESIGN CHOICE (log 1): the spec calls it unspecified. -/
def State.reset : State where
  ctrl := 0
  done := false
  errCmd := false
  errBusy := false
  counter := 0
  key := 0
  digest := 0
  offset := 0
  binned := 0
  code := 0
  phase := .idle
  pendOp := .gen
  rdata := none
  rstN := true
  everReset := true
  inbox := []
  freeCount := 0

/-- The outcome of a step or of an instruction. -/
abbrev Result := Host.Outcome State Fault Refusal

end Sys2Proof.Machine
end

