-- ==== Sys2Proof/Machine/Operands.lean ====
section
/-! DEFINITION. The register map (20_memory R55) and the views of the wide registers as words and bytes (20_memory R54,
10_state R28 to R30). -/

namespace Sys2Proof.Machine

/-- The register at a word index (offset / 4); `none` is reserved (20_memory R55). -/
def regAt (a : WordIndex) : Option Reg :=
  if a = 0x00 then some .id
  else if a = 0x01 then some .ctrl
  else if a = 0x02 then some .cmd
  else if a = 0x03 then some .status
  else if a = 0x04 then some .ctrLo
  else if a = 0x05 then some .ctrHi
  else if a = 0x06 then some .offset
  else if a.extractLsb' 3 3 = 1 then some (.key (a.extractLsb' 0 3))
  else if a.extractLsb' 3 3 = 2 then some (.digest (a.extractLsb' 0 3))
  else if a = 0x18 then some .binnedLo
  else if a = 0x19 then some .binnedHi
  else if a = 0x1A then some .codeLo
  else if a = 0x1B then some .codeHi
  else none

/-- The word index of a register: its offset in 20_memory R55, divided by 4. -/
def regIndex : Reg → WordIndex
  | .id => 0x00
  | .ctrl => 0x01
  | .cmd => 0x02
  | .status => 0x03
  | .ctrLo => 0x04
  | .ctrHi => 0x05
  | .offset => 0x06
  | .key i => 1#3 ++ i
  | .digest i => 2#3 ++ i
  | .binnedLo => 0x18
  | .binnedHi => 0x19
  | .codeLo => 0x1A
  | .codeHi => 0x1B

/-- Bits 31:0. -/
def lo (q : Quad) : Word := q.extractLsb' 0 32

/-- Bits 63:32. -/
def hi (q : Quad) : Word := q.extractLsb' 32 32

/-- `HI ++ LO` (30_encoding R79). -/
def quad (h l : Word) : Quad := h ++ l

/-- Word i of a wide register: bits 32i+31 : 32i (20_memory R56). -/
def wordOf (w : Wide) (i : BitVec 3) : Word := w.extractLsb' (32 * i.toNat) 32

/-- The wide register with word i replaced (42_commands R155, R156). -/
def setWord (w : Wide) (i : BitVec 3) (v : Word) : Wide :=
  (w &&& ~~~(BitVec.setWidth 256 (0xFFFFFFFF : Word) <<< (32 * i.toNat))) ||| (v.setWidth 256 <<< (32 * i.toNat))

/-- Byte j of a wide register: lane j mod 4 of word j div 4, which is bits 8j+7 : 8j (10_state R29, R30). -/
def byteOf (w : Wide) (j : Nat) : Byte := w.extractLsb' (8 * j) 8

/-- The 32 bytes of a wide register, byte 0 first. -/
def bytesOf (w : Wide) : List Byte := (List.range 32).map (byteOf w)

/-- The wide register of eight words, word 0 in bits 31:0 (20_memory R54). -/
def wide (x : Vector Word 8) : Wide := x[7] ++ x[6] ++ x[5] ++ x[4] ++ x[3] ++ x[2] ++ x[1] ++ x[0]

/-- The eight words of a wide register. -/
def wordsOf (w : Wide) : Vector Word 8 :=
  #v[wordOf w 0, wordOf w 1, wordOf w 2, wordOf w 3, wordOf w 4, wordOf w 5, wordOf w 6, wordOf w 7]

/-- `be64(c)`: the counter as 8 bytes, most-significant byte first (00_scope R17, 20_memory R54). -/
def be64 (c : Quad) : Vector Byte 8 :=
  #v[c.extractLsb' 56 8, c.extractLsb' 48 8, c.extractLsb' 40 8, c.extractLsb' 32 8,
     c.extractLsb' 24 8, c.extractLsb' 16 8, c.extractLsb' 8 8, c.extractLsb' 0 8]

/-- `bswap32(w)` (40_keyed_hash R98). -/
def bswap32 (w : Word) : Word :=
  w.extractLsb' 0 8 ++ w.extractLsb' 8 8 ++ w.extractLsb' 16 8 ++ w.extractLsb' 24 8

end Sys2Proof.Machine
end

