-- ==== Sys2Proof/Machine/Flags.lean ====
section
/-! DEFINITION. CTRL's fields, STATUS, the error flags and the interrupt line (10_state R25, R27, R35; 42_commands R158;
60_exceptions R170, R174). The block has no arithmetic condition codes (10_state R37). -/

namespace Sys2Proof.Machine

/-- CTRL.DIAG_EN (10_state R25). -/
def State.diagEn (s : State) : Bool := s.ctrl.getLsbD 0

/-- CTRL.IRQ_EN (10_state R25). -/
def State.irqEn (s : State) : Bool := s.ctrl.getLsbD 1

/-- STATUS.BUSY: 1 exactly when `phase` is BUSY (10_state R34). -/
def State.busy (s : State) : Bool := s.phase = .busy

/-- The CTRL word: bits 31:2 read as zero (10_state R25). -/
def ctrlWord (s : State) : Word := s.ctrl.setWidth 32

/-- The STATUS word: ERR_BUSY ++ ERR_CMD ++ DONE ++ BUSY in bits 3:0, the rest zero (20_memory R56). -/
def statusWord (s : State) : Word :=
  0#28 ++ BitVec.ofBool s.errBusy ++ BitVec.ofBool s.errCmd ++ BitVec.ofBool s.done ++ BitVec.ofBool s.busy

/-- The output `irq`, a function of the state at every instant (10_state R35). -/
def irq (s : State) : Bool := s.irqEn && s.done

/-- `raise ERR_CMD`: nothing but the flag changes (00_scope R17, 60_exceptions R170). -/
def raiseErrCmd (s : State) : State := { s with errCmd := true }

/-- `raise ERR_BUSY`: nothing but the flag changes (00_scope R17, 60_exceptions R170). -/
def raiseErrBusy (s : State) : State := { s with errBusy := true }

/-- `write_STATUS(v)`, in every phase: each W1C flag whose bit of `v` is 1 is cleared (42_commands R158). -/
def writeStatus (v : Word) (s : State) : State :=
  { s with
    done := s.done && !v.getLsbD 1
    errCmd := s.errCmd && !v.getLsbD 2
    errBusy := s.errBusy && !v.getLsbD 3 }

end Sys2Proof.Machine
end

