-- ==== Sys2Proof/Machine/KeyedHash.lean ====
section
/-! DEFINITION. Stage 1: the keyed hash of the counter (40_keyed_hash R90 to R98). `KEYED_HASH` is BLAKE3's keyed mode
(00_scope R3); the spec gives BLAKE3 from general knowledge (93_implementation_defined G1; log 7). -/

namespace Sys2Proof.Machine

namespace Blake3

/-- `IV` (40_keyed_hash R92). -/
def iv : Vector Word 8 :=
  #v[0x6A09E667, 0xBB67AE85, 0x3C6EF372, 0xA54FF53A, 0x510E527F, 0x9B05688C, 0x1F83D9AB, 0x5BE0CD19]

/-- The flags of 40_keyed_hash R92. -/
def chunkStart : Word := 0x01
def chunkEnd : Word := 0x02
def root : Word := 0x08
def keyedFlag : Word := 0x10

/-- `PERM` (40_keyed_hash R92). -/
def perm : Vector (Fin 16) 16 := #v[2, 6, 3, 10, 7, 0, 4, 13, 1, 11, 12, 5, 9, 14, 15, 8]

/-- `m'[i] = m[PERM[i]]` (40_keyed_hash R92). -/
def permute (m : Vector Word 16) : Vector Word 16 := perm.map fun p => m[p]

/-- The mixing function `G` on the state words a, b, c, d (40_keyed_hash R94). -/
def mix (v : Vector Word 16) (a b c d : Fin 16) (mx my : Word) : Vector Word 16 :=
  let v := v.set a (v[a] + v[b] + mx)
  let v := v.set d ((v[d] ^^^ v[a]).rotateRight 16)
  let v := v.set c (v[c] + v[d])
  let v := v.set b ((v[b] ^^^ v[c]).rotateRight 12)
  let v := v.set a (v[a] + v[b] + my)
  let v := v.set d ((v[d] ^^^ v[a]).rotateRight 8)
  let v := v.set c (v[c] + v[d])
  v.set b ((v[b] ^^^ v[c]).rotateRight 7)

/-- `ROUND(m)`: the eight mixings in the order written (40_keyed_hash R95). -/
def round (v m : Vector Word 16) : Vector Word 16 :=
  let v := mix v 0 4 8 12 m[0] m[1]
  let v := mix v 1 5 9 13 m[2] m[3]
  let v := mix v 2 6 10 14 m[4] m[5]
  let v := mix v 3 7 11 15 m[6] m[7]
  let v := mix v 0 5 10 15 m[8] m[9]
  let v := mix v 1 6 11 12 m[10] m[11]
  let v := mix v 2 7 8 13 m[12] m[13]
  mix v 3 4 9 14 m[14] m[15]

/-- `n` further rounds, the message permuted between two rounds and not after the last (40_keyed_hash R96). -/
def rounds : Nat → Vector Word 16 → Vector Word 16 → Vector Word 16
  | 0, v, _ => v
  | 1, v, m => round v m
  | n + 2, v, m => rounds (n + 1) (round v m) (permute m)

/-- `COMPRESS(h, m, t, b, f)` (40_keyed_hash R96). -/
def compress (h : Vector Word 8) (m : Vector Word 16) (t : Quad) (b f : Word) : Vector Word 8 :=
  let v := rounds 7
    #v[h[0], h[1], h[2], h[3], h[4], h[5], h[6], h[7], iv[0], iv[1], iv[2], iv[3], lo t, hi t, b, f] m
  #v[v[0] ^^^ v[8], v[1] ^^^ v[9], v[2] ^^^ v[10], v[3] ^^^ v[11],
     v[4] ^^^ v[12], v[5] ^^^ v[13], v[6] ^^^ v[14], v[7] ^^^ v[15]]

/-- The message block of an 8-byte message, padded with zeros (40_keyed_hash R97). -/
def block (msg : Vector Byte 8) : Vector Word 16 :=
  #v[le32 msg[0] msg[1] msg[2] msg[3], le32 msg[4] msg[5] msg[6] msg[7], 0, 0, 0, 0, 0, 0, 0, 0, 0, 0, 0, 0, 0, 0]

/-- `BLAKE3_keyed_hash(K, msg)` of an 8-byte message (40_keyed_hash R97). -/
def keyedHash (k : Wide) (msg : Vector Byte 8) : Wide :=
  wide (compress (wordsOf k) (block msg) 0 8 (chunkStart ||| chunkEnd ||| root ||| keyedFlag))

end Blake3

/-- The parameter `KEYED_HASH` of 00_scope R14, at the value of this hardware (00_scope R3). -/
def keyedHash (k : Wide) (msg : Vector Byte 8) : Wide := Blake3.keyedHash k msg

/-- `KH(K, C)` (40_keyed_hash R90). -/
def kh (k : Wide) (c : Quad) : Wide := keyedHash k (be64 c)

end Sys2Proof.Machine
end

