-- ==== Sys2Proof/Machine/Truncate.lean ====
section
/-! DEFINITION. Stages 2 and 3: truncation and reduction (41_truncate_reduce R110 to R120). -/

namespace Sys2Proof.Machine

/-- `circular_index(buf, i) = buf[i mod length(buf)]` (41_truncate_reduce R112). -/
def circularIndex (buf : List Byte) (i : Nat) : Byte := buf.getD (i % buf.length) 0

/-- `offset = D[31] mod 28` (41_truncate_reduce R111). -/
def truncOffset (d : Wide) : BitVec 5 := BitVec.ofNat 5 ((byteOf d Config.offsetByte).toNat % Config.offsetMod)

/-- The mask of window position k (41_truncate_reduce R114). -/
def windowMask (k : Nat) : Byte := if k = 0 then Config.mask0 else Config.maskRest

/-- `s[k]`, masked: byte `(offset + k) mod 32` of the digest (41_truncate_reduce R113, R114). -/
def selected (d : Wide) (k : Nat) : Byte := circularIndex (bytesOf d) ((truncOffset d).toNat + k) &&& windowMask k

/-- The eight selected bytes, most-significant first (41_truncate_reduce R115). -/
def assemble (d : Wide) : Quad :=
  selected d 0 ++ selected d 1 ++ selected d 2 ++ selected d 3 ++
  selected d 4 ++ selected d 5 ++ selected d 6 ++ selected d 7

/-- `Truncate(D)` (41_truncate_reduce R110). -/
def truncate (d : Wide) : BitVec 5 × Quad := (truncOffset d, assemble d)

/-- `Reduce(B)` (41_truncate_reduce R117). -/
def reduce (b : Quad) : Quad := b % Config.modulus

/-- `Code(K, C)` (41_truncate_reduce R119). -/
def codeOf (k : Wide) (c : Quad) : Quad := reduce (truncate (kh k c)).2

end Sys2Proof.Machine
end

