-- ==== Sys2Proof/Machine/Ops.lean ====
section
/-! DEFINITION. The operations the meanings share: reading a register, the effects of register writes, accepting a
command, finishing one, and reset. Raising an error flag, the block's one way of reporting an error, is in Flags.lean;
the block has no exception entry and no return (60_exceptions R175). -/

namespace Sys2Proof.Machine

/-- What register `r` reads as (20_memory R56). -/
def readReg (r : Reg) (s : State) : Word :=
  match r with
  | .id => Config.idValue
  | .ctrl => ctrlWord s
  | .cmd => 0
  | .status => statusWord s
  | .ctrLo => lo s.counter
  | .ctrHi => hi s.counter
  | .offset => if s.diagEn then s.offset.setWidth 32 else 0
  | .key _ => 0
  | .digest i => if s.diagEn then wordOf s.digest i else 0
  | .binnedLo => if s.diagEn then lo s.binned else 0
  | .binnedHi => if s.diagEn then hi s.binned else 0
  | .codeLo => lo s.code
  | .codeHi => hi s.code

/-- `MemRead` at a word index: a reserved index reads as zero (20_memory R56). -/
def memRead (a : WordIndex) (s : State) : Word :=
  match regAt a with
  | some r => readReg r s
  | none => 0

/-- DIGEST, OFFSET and BINNED set to zero (42_commands R153). -/
def clearIntermediates (s : State) : State := { s with digest := 0, offset := 0, binned := 0 }

/-- A write that is refused with ERR_BUSY while BUSY, before any other check (42_commands R152, 60_exceptions R173). -/
def whileIdle (f : State → State) (s : State) : State := if s.busy then raiseErrBusy s else f s

/-- `write_CTRL(v)` while IDLE (42_commands R153). -/
def writeCtrl (v : Word) (s : State) : State :=
  let s' := { s with ctrl := v.extractLsb' 0 2 }
  if s.diagEn && !v.getLsbD 0 then clearIntermediates s' else s'

/-- `write_COUNTER(0x10, v)` while IDLE (42_commands R154). -/
def writeCtrLo (v : Word) (s : State) : State := { s with counter := quad (hi s.counter) v }

/-- `write_COUNTER(0x14, v)` while IDLE (42_commands R154). -/
def writeCtrHi (v : Word) (s : State) : State := { s with counter := quad v (lo s.counter) }

/-- `write_KEY(i, v)` while IDLE (42_commands R155). -/
def writeKey (i : BitVec 3) (v : Word) (s : State) : State := { s with key := setWord s.key i v }

/-- `write_DIGEST(i, v)` while IDLE: ignored outside diagnostic mode (42_commands R156). -/
def writeDigest (i : BitVec 3) (v : Word) (s : State) : State :=
  if s.diagEn then { s with digest := setWord s.digest i v } else s

/-- `write_BINNED(0x60, v)` while IDLE: ignored outside diagnostic mode (42_commands R157). -/
def writeBinnedLo (v : Word) (s : State) : State :=
  if s.diagEn then { s with binned := quad (hi s.binned) v } else s

/-- `write_BINNED(0x64, v)` while IDLE: ignored outside diagnostic mode (42_commands R157). -/
def writeBinnedHi (v : Word) (s : State) : State :=
  if s.diagEn then { s with binned := quad v (lo s.binned) } else s

/-- `accept(op)` (42_commands R132). -/
def accept (o : Op) (s : State) : State := { s with phase := .busy, pendOp := o, done := false }

/-- What a word written to CMD does while IDLE (42_commands R131, R150). -/
def dispatchCmd (w : Word) (s : State) : State :=
  match decodeCmd w s.diagEn with
  | .illegal => raiseErrCmd s
  | .nop => s
  | .op o => accept o s

/-- WR32 to CMD (42_commands R131). -/
def writeCmd (w : Word) (s : State) : State := whileIdle (dispatchCmd w) s

/-- A write to register `r` (42_commands R151, 20_memory R57). -/
def writeReg (r : Reg) (v : Word) (s : State) : State :=
  match r with
  | .id => s
  | .ctrl => whileIdle (writeCtrl v) s
  | .cmd => writeCmd v s
  | .status => writeStatus v s
  | .ctrLo => whileIdle (writeCtrLo v) s
  | .ctrHi => whileIdle (writeCtrHi v) s
  | .offset => s
  | .key i => whileIdle (writeKey i v) s
  | .digest i => whileIdle (writeDigest i v) s
  | .binnedLo => whileIdle (writeBinnedLo v) s
  | .binnedHi => whileIdle (writeBinnedHi v) s
  | .codeLo => s
  | .codeHi => s

/-- `MemWrite` at a word index: a reserved index is ignored (20_memory R57). -/
def memWrite (a : WordIndex) (v : Word) (s : State) : State :=
  match regAt a with
  | some r => writeReg r v s
  | none => s

/-- The read data are valid after a read (20_memory R51). -/
def answer (v : Word) (s : State) : State := { s with rdata := some v }

/-- The read data are not valid after a cycle that presented no read (20_memory R51; log 4). -/
def noAnswer (s : State) : State := { s with rdata := none }

/-- The end of every completion (42_commands R141). -/
def finish (s : State) : State := { s with phase := .idle, done := true }

/-- Reset: every register takes its reset value, a pending command is abandoned, and `pend_op` is unspecified
(70_reset R200; log 2). DESIGN CHOICE (log 4): `rdata` is not valid after it. -/
def takeReset (s : State) : State :=
  { s with
    ctrl := 0, done := false, errCmd := false, errBusy := false, counter := 0, key := 0, digest := 0, offset := 0,
    binned := 0, code := 0, phase := .idle, pendOp := Config.freeOp s.freeCount, rdata := none, everReset := true,
    freeCount := s.freeCount + 1 }

end Sys2Proof.Machine
end

