-- ==== Sys2Proof/Machine/Bus.lean ====
section
/-! DEFINITION. The bus transactions RD32 and WR32 (20_memory R56, R57; 42_commands R151). -/

namespace Sys2Proof.Machine

/-- RD32: the word at the index, with no side effect on any register (20_memory R56). -/
def execRd32 (addr : WordIndex) (s : State) : Result := .next (answer (memRead addr s) s)

/-- WR32: the effect of the register at the index (42_commands R151). -/
def execWr32 (addr : WordIndex) (data : Word) (s : State) : Result := .next (noAnswer (memWrite addr data s))

end Sys2Proof.Machine
end

