-- ==== Sys2Proof/Machine/Commands.lean ====
section
/-! DEFINITION. The commands: their acceptance at the write to CMD (42_commands R130 to R138) and their completion by the
engine (R134 to R138, R140, R141). -/

namespace Sys2Proof.Machine

/-- A command issued by the host: the write of its word to CMD (30_encoding R79). -/
def issue (w : Word) (s : State) : Result := .next (noAnswer (writeCmd w s))

/-- NOP: no effect while IDLE; ERR_BUSY while BUSY (42_commands R133). -/
def execNop (s : State) : Result := issue nopWord s

/-- GEN: accepted in every mode (42_commands R134); `completeGen` is its completion. -/
def execGen (s : State) : Result := issue Op.gen.word s

/-- HASH: accepted in diagnostic mode, else ERR_CMD (42_commands R135); `completeHash` is its completion. -/
def execHash (s : State) : Result := issue Op.hash.word s

/-- TRUNC: accepted in diagnostic mode, else ERR_CMD (42_commands R136); `completeTrunc` is its completion. -/
def execTrunc (s : State) : Result := issue Op.trunc.word s

/-- REDUCE: accepted in diagnostic mode, else ERR_CMD (42_commands R137); `completeReduce` is its completion. -/
def execReduce (s : State) : Result := issue Op.reduce.word s

/-- ZEROIZE: accepted in every mode (42_commands R138); `completeZeroize` is its completion. -/
def execZeroize (s : State) : Result := issue Op.zeroize.word s

/-- The registers GEN writes (42_commands R134). -/
def completeGen (s : State) : State :=
  let d := kh s.key s.counter
  let ob := truncate d
  let s' := { s with code := reduce ob.2 }
  if s.diagEn then { s' with digest := d, offset := ob.1, binned := ob.2 } else s'

/-- The register HASH writes (42_commands R135). -/
def completeHash (s : State) : State := { s with digest := kh s.key s.counter }

/-- The registers TRUNC writes (42_commands R136). -/
def completeTrunc (s : State) : State :=
  { s with offset := (truncate s.digest).1, binned := (truncate s.digest).2 }

/-- The register REDUCE writes (42_commands R137). -/
def completeReduce (s : State) : State := { s with code := reduce s.binned }

/-- The registers ZEROIZE clears (42_commands R138). -/
def completeZeroize (s : State) : State :=
  { s with key := 0, counter := 0, digest := 0, offset := 0, binned := 0, code := 0 }

/-- The effect of an operation on the data registers. -/
def effect (o : Op) (s : State) : State :=
  match o with
  | .gen => completeGen s
  | .hash => completeHash s
  | .trunc => completeTrunc s
  | .reduce => completeReduce s
  | .zeroize => completeZeroize s

/-- The completion step of the pending command (42_commands R141). -/
def complete (s : State) : State := finish (effect s.pendOp s)

/-- The engine's turn: completion "is enabled exactly when `phase = BUSY`" (42_commands R140). -/
def engineTurn (s : State) : State := if s.busy then complete s else s

end Sys2Proof.Machine
end

