-- ==== Sys2Proof/Machine/Dispatch.lean ====
section
/-! DEFINITION. The meaning of every instruction of the opcode table. -/

namespace Sys2Proof.Machine

def exec (i : Instr) (s : State) : Host.Outcome State Fault Refusal :=
  match i with
  | .nop => Sys2Proof.Machine.execNop s
  | .gen => Sys2Proof.Machine.execGen s
  | .hash => Sys2Proof.Machine.execHash s
  | .trunc => Sys2Proof.Machine.execTrunc s
  | .reduce => Sys2Proof.Machine.execReduce s
  | .zeroize => Sys2Proof.Machine.execZeroize s
  | .rd32 addr => Sys2Proof.Machine.execRd32 addr s
  | .wr32 addr data => Sys2Proof.Machine.execWr32 addr data s

end Sys2Proof.Machine
end

