-- ==== Sys2Proof/Machine/Environment.lean ====
section
/-! DEFINITION. What the world outside does to the block: transactions, requests by host address, the reset pin, the
engine's turn (20_memory R50 to R53, R67; 42_commands R140; 70_reset R200, R202). -/

namespace Sys2Proof.Machine

/-- An encoded word at the port. A command word the decoder knows no instruction for is still a write to CMD, which
raises ERR_CMD or ERR_BUSY (42_commands R131, R150). -/
def present (b : BusWord) (s : State) : Result :=
  match b with
  | .cmd32 w =>
    match decode (.cmd32 w) with
    | .ok i => exec i s
    | .error _ => exec (.wr32 (regIndex .cmd) w) s
  | .bus39 w => exec (busInstr w) s

/-- Whether an encoded word presents a read. -/
def isRead : BusWord → Bool
  | .cmd32 _ => false
  | .bus39 w => !w.getLsbD 38

/-- A transaction presented while `rst_n` is low: ignored, and a read returns 0 (70_reset R200). -/
def presentInReset (b : BusWord) (s : State) : State :=
  if isRead b then answer 0 (takeReset s) else takeReset s

/-- The transaction of a request that can be presented: RD32 or WR32 at offset[7:2] (20_memory R50, R51). -/
def requestInstr (r : HostRequest) : Instr :=
  if r.write then .wr32 (BitVec.ofNat 6 (r.off / 4)) r.data else .rd32 (BitVec.ofNat 6 (r.off / 4))

/-- A request by host address. What the port cannot carry is stopped by name (20_memory R50, R52, R67). -/
def request (r : HostRequest) (k : BusWord → Result) : Result :=
  if !r.masterOk then .refused .secondMaster
  else if !r.widthOk then .refused .accessWidth
  else if !r.inWindow then .fault .outsideWindow
  else if !r.aligned then .refused .misalignedOffset
  else k (encode (requestInstr r))

/-- The level of the reset pin at a rising edge: reset is taken when it is low (70_reset R200). DESIGN CHOICE (log 4): a
reset edge makes `rdata` not valid, and an edge with `rst_n` high leaves it as it was; 20_memory R51 says of neither. -/
def pinRst (level : Bool) (s : State) : State :=
  if level then { s with rstN := true } else takeReset { s with rstN := false }

/-- An input while `rst_n` stays low: reset is taken again at every edge (70_reset R200). -/
def inReset (e : Input) (s : State) : Result :=
  match e with
  | .port b => .next (presentInReset b s)
  | .request r => request r fun b => .next (presentInReset b s)
  | .idle => .next (takeReset s)
  | .engine => .next (takeReset s)
  | .rst level => .next (pinRst level s)

/-- An input while the block runs. -/
def running (e : Input) (s : State) : Result :=
  match e with
  | .port b => present b s
  | .request r => request r fun b => present b s
  | .idle => .next (noAnswer s)
  | .engine => .next (engineTurn s)
  | .rst level => .next (pinRst level s)

/-- An input before the first reset: a run is refused unless the reset pin acts (70_reset R202). -/
def beforeReset (e : Input) (s : State) : Result :=
  match e with
  | .rst level => .next (pinRst level s)
  | .port _ => .refused .launchedWithoutReset
  | .request _ => .refused .launchedWithoutReset
  | .idle => .refused .launchedWithoutReset
  | .engine => .refused .launchedWithoutReset

/-- One input, by what the pin and the block's history say. -/
def takeInput (e : Input) (s : State) : Result :=
  if !s.rstN then inReset e s
  else if !s.everReset then beforeReset e s
  else running e s

/-- Nothing presented and no turn listed: reset if the pin is low; else the engine completes a pending command (weak
fairness, 70_reset R214), and an idle block "does nothing until a host write" (60_exceptions R188). -/
def quiet (s : State) : Result :=
  if !s.rstN then .next (takeReset s)
  else if !s.everReset then .refused .launchedWithoutReset
  else .next (engineTurn (noAnswer s))

/-- One step: the next input of the list, or a quiet one. -/
def stepOn (inputs : List Input) (s : State) : Result :=
  match inputs with
  | [] => quiet s
  | e :: rest => takeInput e { s with inbox := rest }

end Sys2Proof.Machine
end

