-- ==== Sys2Proof/Machine/Step.lean ====
section
/-! DEFINITION. One step of the machine, and the placing of an instruction where the next step takes it from. -/

namespace Sys2Proof.Machine

/-- One step: the first input of `inbox` takes effect (log 3). -/
def step (s : State) : Host.Outcome State Fault Refusal := stepOn s.inbox s

/-- The state in which the host presents the instruction of these bits next: the block "fetches no instructions"
(10_state R23), so the word is put at the head of the inputs, with the reset released (log 6). A number that is no word
of the opcode table's lengths changes nothing. -/
def State.withFetchWord (s : State) (nbits w : Nat) : State :=
  match busWord nbits w with
  | .ok b => { s with inbox := .port b :: s.inbox, rstN := true, everReset := true }
  | .error _ => s

end Sys2Proof.Machine
end

