-- ==== Sys2Proof/Machine/Contracts.lean ====
section
/-! DEFINITION. The host-side contracts: counter derivation, secret generation, the display of a code, the
pseudo-instructions and the boot order (60_exceptions R178 to R183, 41_truncate_reduce R120, 30_encoding R79,
70_reset_and_hazards R203). None of this is in the block (00_scope R8). -/

namespace Sys2Proof.Machine

/-! ### Counter derivation -/

/-- What `derive_counter` returns (60_exceptions R178). -/
inductive CounterResult where
  | ok (c : Quad)
  /-- 60_exceptions R179 -/
  | timeError
  /-- 60_exceptions R181 -/
  | intervalError
  deriving DecidableEq, Repr

/-- Elapsed whole seconds as a 64-bit unsigned number; what does not fit is a free value (log 10). -/
def elapsed64 (e : Nat) : Quad := if e < 2 ^ 64 then BitVec.ofNat 64 e else Config.freeElapsed e

/-- `derive_counter(now, epoch, interval)`; instants are seconds as rational numbers (60_exceptions R178; log 10). -/
def deriveCounter (now epoch : Rat) (interval : Nat) : CounterResult :=
  if interval = 0 then .intervalError
  else if now < epoch then .timeError
  else .ok (BitVec.ofNat 64 ((elapsed64 (now - epoch).floor.toNat).toNat / interval))

/-! ### Secret generation -/

/-- What the secret source returns: a draw of 32 bytes, or `RandomBytesError` (60_exceptions R182). -/
inductive SecretResult where
  | ok (secret : Vector Byte 32)
  | randomBytesError
  deriving DecidableEq, Repr

/-! ### Display -/

/-- `dec11(code)`: eleven decimal digits, most-significant first, padded with '0' (41_truncate_reduce R120). -/
def dec11 (code : Quad) : List Char :=
  (List.range Config.codeDigits).map fun k =>
    Nat.digitChar (code.toNat / 10 ^ (Config.codeDigits - 1 - k) % 10)

/-! ### Pseudo-instructions -/

/-- RD32 at a register's offset (30_encoding R78). -/
def rd (r : Reg) : Instr := .rd32 (regIndex r)

/-- WR32 at a register's offset (30_encoding R78). -/
def wr (r : Reg) (v : Word) : Instr := .wr32 (regIndex r) v

/-- The word of four of 32 bytes: `le32(S[4i], S[4i+1], S[4i+2], S[4i+3])` (30_encoding R79). -/
def packWord (b : Vector Byte 32) (i : Fin 8) : Word := le32 b[4 * i.val] b[4 * i.val + 1] b[4 * i.val + 2] b[4 * i.val + 3]

/-- The wide register that holds 32 bytes (10_state R29, R30). -/
def wideOfBytes (b : Vector Byte 32) : Wide :=
  wide #v[packWord b 0, packWord b 1, packWord b 2, packWord b 3, packWord b 4, packWord b 5, packWord b 6, packWord b 7]

/-- The eight writes of 32 bytes to KEY0..KEY7 or to DIGEST0..DIGEST7 (30_encoding R79). -/
def writeBytes (reg : BitVec 3 → Reg) (b : Vector Byte 32) : List Instr :=
  [wr (reg 0) (packWord b 0), wr (reg 1) (packWord b 1), wr (reg 2) (packWord b 2), wr (reg 3) (packWord b 3),
   wr (reg 4) (packWord b 4), wr (reg 5) (packWord b 5), wr (reg 6) (packWord b 6), wr (reg 7) (packWord b 7)]

/-- The pseudo-instructions of 30_encoding R79. -/
inductive Pseudo where
  | cmdNop
  | cmd (o : Op)
  | wrctr (c : Quad)
  | wrkey (secret : Vector Byte 32)
  /-- one turn of the loop; `waitDone` says when the loop ends -/
  | wait
  | rdcode
  | rdbinned
  | wrdigest (d : Vector Byte 32)
  | ack
  deriving DecidableEq, Repr

/-- The expansion of a pseudo-instruction (30_encoding R79). -/
def Pseudo.expand : Pseudo → List Instr
  | .cmdNop => [wr .cmd nopWord]
  | .cmd o => [wr .cmd o.word]
  | .wrctr c => [wr .ctrLo (lo c), wr .ctrHi (hi c)]
  | .wrkey secret => writeBytes .key secret
  | .wait => [rd .status]
  | .rdcode => [rd .codeLo, rd .codeHi]
  | .rdbinned => [rd .binnedLo, rd .binnedHi]
  | .wrdigest d => writeBytes .digest d
  | .ack => [wr .status 0x0000000E]

/-- `wait` ends when the STATUS word just read has BUSY = 0; until then it reads again (30_encoding R79). -/
def waitDone (s : State) : Bool :=
  match s.rdata with
  | some w => !w.getLsbD 0
  | none => false

/-! ### Boot order -/

/-- What a host writes after reset, up to `cmd GEN` (70_reset_and_hazards R203 steps 2 to 7): nothing at all if the
secret source or the counter derivation failed. DESIGN CHOICE (log 11): the counter is derived before KEY is written, step 4
before step 3, which R203 allows; the writes are in the order it lists. -/
def bootProgram (secret : SecretResult) (counter : CounterResult) (ack : Bool) (ctrl : Option Word) :
    Option (List Instr) :=
  match secret, counter with
  | .randomBytesError, _ => none
  | .ok _, .timeError => none
  | .ok _, .intervalError => none
  | .ok k, .ok c =>
    some ((Pseudo.wrkey k).expand ++ (Pseudo.wrctr c).expand ++ (if ack then Pseudo.ack.expand else []) ++
      (match ctrl with | some v => [wr .ctrl v] | none => []) ++ (Pseudo.cmd .gen).expand)

/-- What a host checks before it takes CODE as its code: ERR_BUSY and ERR_CMD are 0 and DONE is 1 in the STATUS word it
read (70_reset_and_hazards R203 step 8). -/
def statusGood (w : Word) : Bool := !w.getLsbD 3 && !w.getLsbD 2 && w.getLsbD 1

end Sys2Proof.Machine
end

