-- ==== Sys2Proof/Safety.lean ====
section
/-! DEFINITION. The terms claims are stated in: the invariant of the block, a running block, and what an input does at
the port. -/

namespace Sys2Proof.Machine

/-- `rst_n` is high and the block has been reset: transactions reach it (70_reset R200, R202). -/
abbrev Live (s : State) : Prop := s.rstN = true ∧ s.everReset = true

/-- The diagnostic invariant (10_state R36). -/
abbrev DiagInv (s : State) : Prop := s.diagEn = false → s.digest = 0 ∧ s.offset = 0 ∧ s.binned = 0

/-- CODE is below 10^11 (10_state R33, 41_truncate_reduce R118). -/
abbrev CodeInv (s : State) : Prop := s.code.toNat < 10 ^ 11

/-- OFFSET is in 0..27 (10_state R31). -/
abbrev OffsetInv (s : State) : Prop := s.offset.toNat < 28

/-- DONE is 0 while BUSY: acceptance clears it and completion alone sets it (42_commands R132, R141). -/
abbrev BusyInv (s : State) : Prop := s.phase = .busy → s.done = false

/-- A pending stage command was accepted in diagnostic mode, which cannot be left while BUSY (30_encoding R72,
42_commands R152). -/
abbrev StageInv (s : State) : Prop :=
  s.phase = .busy → (s.pendOp = .hash ∨ s.pendOp = .trunc ∨ s.pendOp = .reduce) → s.diagEn = true

/-- An instruction or a step goes to `t`, whatever the port `rdata` then holds: its validity is the model's (log 4). -/
abbrev Gives (r : Result) (t : State) : Prop := ∃ d, r = .next { t with rdata := d }

/-- The next step of `s` is the engine's turn: it is listed next, or nothing is listed (log 3). -/
abbrev EngineNext (s : State) : Prop := s.inbox.head? = some .engine ∨ s.inbox.head? = none

/-- The invariant of the block. -/
abbrev BlockInv (s : State) : Prop := DiagInv s ∧ CodeInv s ∧ OffsetInv s ∧ BusyInv s ∧ StageInv s

/-- The write an input presents at the port: its word index and its word. -/
def writeOf (e : Input) : Option (WordIndex × Word) :=
  match e with
  | .port (.cmd32 w) => some (2, w)
  | .port (.bus39 w) => if w.getLsbD 38 then some (w.extractLsb' 32 6, w.extractLsb' 0 32) else none
  | .request r => if r.wf && r.write then some (BitVec.ofNat 6 (r.off / 4), r.data) else none
  | .idle => none
  | .engine => none
  | .rst _ => none

/-- The write the next step of `s` presents. -/
def nextWrite (s : State) : Option (WordIndex × Word) := s.inbox.head?.bind writeOf

/-- The next step of `s` takes reset while `rst_n` was high before. -/
abbrev NextIsReset (s : State) : Prop := s.inbox.head? = some (.rst false)

/-- An input the block can be given with no reset and no stop: what a run of 70_reset R214 ("in which ... no reset
follows") may hold. -/
def Input.lawful : Input → Bool
  | .port _ => true
  | .request r => r.wf
  | .idle => true
  | .engine => true
  | .rst level => level

/-- Inputs among which there is no host write, no engine's turn, no reset and nothing the port cannot carry. -/
abbrev ReadsOnly (l : List Input) : Prop := ∀ e ∈ l, e.lawful = true ∧ writeOf e = none ∧ e ≠ .engine

/-- A command, the inputs that come while it is pending, the engine's turn, and the inputs that come after it (log 3). -/
def commandWith (o : Op) (pending after : List Input) : List Input :=
  .port (encode o.instr) :: pending ++ .engine :: after

/-- The inputs of a program of transactions. -/
def presented (p : List Instr) : List Input := p.map fun i => .port (encode i)

end Sys2Proof.Machine
end

