-- ==== Sys2Proof/Certificates/Slice0/Obligations.lean ====
section
/-! DEFINITION. The statements about the model. -/

open Sys2Proof Sys2Proof.Machine

/-! ### Encoding -/

/-- 30_encoding R71, R77: decoding the word of an instruction gives the instruction back. -/
def Obligations.DecodeOfEncodeIsTheInstruction : Prop :=
  ∀ i : Instr, i.wf = true → decode (encode i) = .ok i

/-- 30_encoding R75, R77: a word that decodes is the word of its instruction, but for the ignored data of a read. -/
def Obligations.EncodeOfDecodeIsTheWord : Prop :=
  (∀ w i, decode (.cmd32 w) = .ok i → encode i = .cmd32 w) ∧
  (∀ w : BitVec 39, ∃ i, decode (.bus39 w) = .ok i ∧
    encode i = .bus39 (if w.getLsbD 38 then w else (w >>> 32) <<< 32))

/-- 30_encoding R74: six legal words in diagnostic mode, three in normal mode. -/
def Obligations.LegalCommandWords : Prop :=
  ∀ w : Word,
    (decodeCmd w true ≠ .illegal ↔ w = 0 ∨ w = 1 ∨ w = 2 ∨ w = 3 ∨ w = 4 ∨ w = 5) ∧
    (decodeCmd w false ≠ .illegal ↔ w = 0 ∨ w = 1 ∨ w = 5)

/-- Words written out from 30_encoding R71 and from the programs P1, P2 of 95_test_vectors. -/
def Obligations.WordsOfTheSpecDecode : Prop :=
  decodeTableWord 32 0x00000000 = some .nop ∧ decodeTableWord 32 0x00000001 = some .gen ∧
  decodeTableWord 32 0x00000002 = some .hash ∧ decodeTableWord 32 0x00000003 = some .trunc ∧
  decodeTableWord 32 0x00000004 = some .reduce ∧ decodeTableWord 32 0x00000005 = some .zeroize ∧
  decodeTableWord 32 0x00000006 = none ∧ decodeTableWord 32 0x00000011 = none ∧
  decodeTableWord 40 0x0300000000 = some (.rd32 3) ∧ decodeTableWord 40 0x1A00000000 = some (.rd32 0x1A) ∧
  decodeTableWord 40 0x4803020100 = some (.wr32 8 0x03020100) ∧ decodeTableWord 40 0x4200000001 = some (.wr32 2 1)

/-- The step takes the word at the head of the inputs and runs its instruction; a command word that is no instruction is
a write to CMD; `withFetchWord` puts a word there. That the inputs are a list is the model's (log 3), and so are a bare
command word at the port and what `withFetchWord` sets: the head of the list, `rstN` and `everReset` (log 6). -/
def Obligations.StepRunsTheDecodedInstruction : Prop :=
  (∀ s b i rest, Live s → s.inbox = .port b :: rest → decode b = .ok i → step s = exec i { s with inbox := rest }) ∧
  (∀ s w e rest, Live s → s.inbox = .port (.cmd32 w) :: rest → decode (.cmd32 w) = .error e →
    step s = exec (.wr32 2 w) { s with inbox := rest }) ∧
  (∀ (s : State) nbits w i, decodeTableWord nbits w = some i →
    step (s.withFetchWord nbits w) = exec i { s with rstN := true, everReset := true })

/-! ### Reset and launch -/

/-- The state after reset meets the invariant. -/
def Obligations.ResetStateMeetsBlockInv : Prop := BlockInv State.reset

/-- 70_reset R200: a low `rst_n` gives every register its reset value and abandons a pending command; while it is low,
transactions are ignored and reads return 0. That every step is such an edge, the engine's
turn and a step with nothing listed too, is the model's (log 5). `ReleasingTheResetPinChangesNoRegister` says what a high
level does. -/
def Obligations.ResetPinLowResetsEveryRegister : Prop :=
  ∀ s, (NextIsReset s ∨ (s.rstN = false ∧ ∀ e, s.inbox.head? = some e → e.lawful = true ∧ e ≠ .rst true)) →
    ∃ t, step s = .next t ∧ t.inbox = s.inbox.tail ∧ t.rstN = false ∧
      t.ctrl = 0 ∧ statusWord t = 0 ∧ t.counter = 0 ∧ t.key = 0 ∧ t.digest = 0 ∧ t.offset = 0 ∧ t.binned = 0 ∧
      t.code = 0 ∧ t.phase = .idle ∧ irq t = false ∧
      (∀ w, s.inbox.head? = some (.port (.bus39 w)) → w.getLsbD 38 = false → t.rdata = some 0) ∧
      (∀ r, s.inbox.head? = some (.request r) → r.write = false → t.rdata = some 0)

/-- 70_reset R202: before the first reset a run is refused, whatever comes but the reset pin. -/
def Obligations.LaunchWithoutResetIsRefused : Prop :=
  ∀ s, s.everReset = false → s.rstN = true → (∀ level, s.inbox.head? ≠ some (.rst level)) →
    step s = .refused .launchedWithoutReset

/-! ### The commands -/

/-- 42_commands R133. -/
def Obligations.NopChangesNoRegister : Prop :=
  ∀ s, Gives (exec .nop s) (if s.phase = .busy then { s with errBusy := true } else s)

/-- 42_commands R134: GEN is accepted in every mode while IDLE; its completion writes CODE, and the intermediates in
diagnostic mode only. The model's are when it is the engine's turn (log 3) and that a completion keeps
`pend_op` (log 2). -/
def Obligations.GenComputesTheCode : Prop :=
  (∀ s, s.phase = .idle → Gives (exec .gen s) { s with phase := .busy, pendOp := .gen, done := false }) ∧
  (∀ s, s.phase = .busy → Gives (exec .gen s) { s with errBusy := true }) ∧
  (∀ s, Live s → s.phase = .busy → s.pendOp = .gen → EngineNext s →
    Gives (step s) { s with
      inbox := s.inbox.tail, phase := .idle, done := true
      code := reduce (truncate (kh s.key s.counter)).2
      digest := if s.diagEn then kh s.key s.counter else s.digest
      offset := if s.diagEn then (truncate (kh s.key s.counter)).1 else s.offset
      binned := if s.diagEn then (truncate (kh s.key s.counter)).2 else s.binned })

/-- 42_commands R135. The model's are when it is the engine's turn (log 3) and that a completion keeps `pend_op`
(log 2). -/
def Obligations.HashWritesTheDigest : Prop :=
  (∀ s, s.phase = .idle → s.diagEn = true → Gives (exec .hash s) { s with phase := .busy, pendOp := .hash, done := false }) ∧
  (∀ s, s.phase = .idle → s.diagEn = false → Gives (exec .hash s) { s with errCmd := true }) ∧
  (∀ s, s.phase = .busy → Gives (exec .hash s) { s with errBusy := true }) ∧
  (∀ s, Live s → s.phase = .busy → s.pendOp = .hash → EngineNext s →
    Gives (step s) { s with
      inbox := s.inbox.tail, phase := .idle, done := true
      digest := kh s.key s.counter })

/-- 42_commands R136. The model's are when it is the engine's turn (log 3) and that a completion keeps `pend_op`
(log 2). -/
def Obligations.TruncWritesOffsetAndBinned : Prop :=
  (∀ s, s.phase = .idle → s.diagEn = true → Gives (exec .trunc s) { s with phase := .busy, pendOp := .trunc, done := false }) ∧
  (∀ s, s.phase = .idle → s.diagEn = false → Gives (exec .trunc s) { s with errCmd := true }) ∧
  (∀ s, s.phase = .busy → Gives (exec .trunc s) { s with errBusy := true }) ∧
  (∀ s, Live s → s.phase = .busy → s.pendOp = .trunc → EngineNext s →
    Gives (step s) { s with
      inbox := s.inbox.tail, phase := .idle, done := true
      offset := (truncate s.digest).1, binned := (truncate s.digest).2 })

/-- 42_commands R137. The model's are when it is the engine's turn (log 3) and that a completion keeps `pend_op`
(log 2). -/
def Obligations.ReduceWritesTheCode : Prop :=
  (∀ s, s.phase = .idle → s.diagEn = true → Gives (exec .reduce s) { s with phase := .busy, pendOp := .reduce, done := false }) ∧
  (∀ s, s.phase = .idle → s.diagEn = false → Gives (exec .reduce s) { s with errCmd := true }) ∧
  (∀ s, s.phase = .busy → Gives (exec .reduce s) { s with errBusy := true }) ∧
  (∀ s, Live s → s.phase = .busy → s.pendOp = .reduce → EngineNext s →
    Gives (step s) { s with
      inbox := s.inbox.tail, phase := .idle, done := true
      code := BitVec.ofNat 64 (s.binned.toNat % 10 ^ 11) })

/-- 42_commands R138: CTRL and the error flags are kept. The model's are when it is the engine's turn (log 3) and that a
completion keeps `pend_op` (log 2). -/
def Obligations.ZeroizeClearsTheDataRegisters : Prop :=
  (∀ s, s.phase = .idle → Gives (exec .zeroize s) { s with phase := .busy, pendOp := .zeroize, done := false }) ∧
  (∀ s, s.phase = .busy → Gives (exec .zeroize s) { s with errBusy := true }) ∧
  (∀ s, Live s → s.phase = .busy → s.pendOp = .zeroize → EngineNext s →
    Gives (step s) { s with
      inbox := s.inbox.tail, phase := .idle, done := true
      key := 0, counter := 0, digest := 0, offset := 0, binned := 0, code := 0 })

/-- 30_encoding R70, R77: a WR32 of a command's word to CMD is the command. -/
def Obligations.WriteToCmdIsTheCommand : Prop :=
  ∀ s i w, encode i = .cmd32 w → exec (.wr32 2 w) s = exec i s

/-- 42_commands R150 and the three causes of 60_exceptions R171. -/
def Obligations.IllegalWordSetsErrCmdOnly : Prop :=
  ∀ (s : State) (w : Word), s.phase = .idle →
    (w.toNat / 16 ≠ 0 ∨ 6 ≤ w.toNat % 16 ∨
      ((w.toNat % 16 = 2 ∨ w.toNat % 16 = 3 ∨ w.toNat % 16 = 4) ∧ s.diagEn = false)) →
    Gives (exec (.wr32 2 w) s) { s with errCmd := true }

/-- 42_commands R139: in diagnostic mode GEN leaves what HASH, TRUNC and REDUCE leave; in normal mode its CODE is
`Code(KEY, COUNTER)`, and the stage commands are illegal. The engine's turns are listed as inputs (log 3), and
the schedule is the one in which each completion follows its command at once; `StagesEqualGenWhateverIsRead` allows other
inputs between. -/
def Obligations.StagesEqualGen : Prop :=
  (∀ s : State, Live s → s.phase = .idle → s.diagEn = true →
    ∃ t u,
      core.run 2 { s with inbox := [.port (encode .gen), .engine] } = .next t ∧
      core.run 6 { s with inbox :=
        [.port (encode .hash), .engine, .port (encode .trunc), .engine, .port (encode .reduce), .engine] } = .next u ∧
      t.digest = u.digest ∧ t.offset = u.offset ∧ t.binned = u.binned ∧ t.code = u.code ∧
      t.phase = .idle ∧ u.phase = .idle ∧ t.done = true ∧ u.done = true) ∧
  (∀ s : State, Live s → s.phase = .idle → s.diagEn = false →
    ∃ t, core.run 2 { s with inbox := [.port (encode .gen), .engine] } = .next t ∧ t.code = codeOf s.key s.counter) ∧
  (∀ o : Op, o = .hash ∨ o = .trunc ∨ o = .reduce → decodeCmd o.word false = .illegal)

/-! ### Register accesses -/

/-- 20_memory R56, offset by offset; nothing but the read data changes. -/
def Obligations.ReadReturnsTheRegister : Prop :=
  ∀ s : State,
    let diag := s.ctrl.getLsbD 0
    let reads := fun (a : WordIndex) (v : Word) => exec (.rd32 a) s = .next { s with rdata := some v }
    reads 0x00 0x424F5450 ∧
    reads 0x01 (0#30 ++ s.ctrl) ∧
    reads 0x02 0 ∧
    reads 0x03 (0#28 ++ BitVec.ofBool s.errBusy ++ BitVec.ofBool s.errCmd ++ BitVec.ofBool s.done ++
      BitVec.ofBool (decide (s.phase = .busy))) ∧
    reads 0x04 (s.counter.extractLsb' 0 32) ∧
    reads 0x05 (s.counter.extractLsb' 32 32) ∧
    reads 0x06 (if diag then 0#27 ++ s.offset else 0) ∧
    (∀ i : Fin 8, reads (BitVec.ofNat 6 (8 + i)) 0) ∧
    (∀ i : Fin 8, reads (BitVec.ofNat 6 (16 + i)) (if diag then s.digest.extractLsb' (32 * i) 32 else 0)) ∧
    reads 0x18 (if diag then s.binned.extractLsb' 0 32 else 0) ∧
    reads 0x19 (if diag then s.binned.extractLsb' 32 32 else 0) ∧
    reads 0x1A (s.code.extractLsb' 0 32) ∧
    reads 0x1B (s.code.extractLsb' 32 32) ∧
    (∀ a : WordIndex, a = 0x07 ∨ 0x1C ≤ a.toNat → reads a 0)

/-- 42_commands R153. -/
def Obligations.WriteCtrlStoresTwoBits : Prop :=
  ∀ (s : State) (v : Word), s.phase = .idle →
    Gives (exec (.wr32 0x01 v) s) (
      if s.diagEn = true ∧ v.getLsbD 0 = false
      then { s with ctrl := v.extractLsb' 0 2, digest := 0, offset := 0, binned := 0 }
      else { s with ctrl := v.extractLsb' 0 2 })

/-- 42_commands R158, in every phase. -/
def Obligations.WriteStatusClearsChosenFlags : Prop :=
  ∀ (s : State) (v : Word), Gives (exec (.wr32 0x03 v) s) { s with
    done := s.done && !v.getLsbD 1, errCmd := s.errCmd && !v.getLsbD 2, errBusy := s.errBusy && !v.getLsbD 3 }

/-- 42_commands R154. -/
def Obligations.WriteCounterSetsOneHalf : Prop :=
  ∀ (s : State) (v : Word), s.phase = .idle →
    Gives (exec (.wr32 0x04 v) s) { s with counter := s.counter.extractLsb' 32 32 ++ v } ∧
    Gives (exec (.wr32 0x05 v) s) { s with counter := v ++ s.counter.extractLsb' 0 32 }

/-- 42_commands R155: word i, and with it secret bytes 4i to 4i+3. -/
def Obligations.WriteKeySetsOneWord : Prop :=
  ∀ (s : State) (i : Fin 8) (v : Word), s.phase = .idle →
    ∃ t, Gives (exec (.wr32 (BitVec.ofNat 6 (8 + i)) v) s) t ∧ t = { s with key := t.key } ∧
      (∀ j : Fin 8, t.key.extractLsb' (32 * j) 32 = if j = i then v else s.key.extractLsb' (32 * j) 32) ∧
      (∀ m : Fin 4, byteOf t.key (4 * i + m) = v.extractLsb' (8 * m) 8)

/-- 42_commands R156. -/
def Obligations.WriteDigestInDiagnosticModeOnly : Prop :=
  ∀ (s : State) (i : Fin 8) (v : Word), s.phase = .idle →
    ∃ t, Gives (exec (.wr32 (BitVec.ofNat 6 (16 + i)) v) s) t ∧ t = { s with digest := t.digest } ∧
      (s.diagEn = false → t.digest = s.digest) ∧
      (s.diagEn = true →
        (∀ j : Fin 8, t.digest.extractLsb' (32 * j) 32 = if j = i then v else s.digest.extractLsb' (32 * j) 32) ∧
        (∀ m : Fin 4, byteOf t.digest (4 * i + m) = v.extractLsb' (8 * m) 8))

/-- 42_commands R157. -/
def Obligations.WriteBinnedInDiagnosticModeOnly : Prop :=
  ∀ (s : State) (v : Word), s.phase = .idle →
    Gives (exec (.wr32 0x18 v) s) { s with
      binned := if s.diagEn then s.binned.extractLsb' 32 32 ++ v else s.binned } ∧
    Gives (exec (.wr32 0x19 v) s) { s with
      binned := if s.diagEn then v ++ s.binned.extractLsb' 0 32 else s.binned }

/-- 20_memory R57: ID, OFFSET, CODE_LO, CODE_HI and the reserved offsets, in every phase. -/
def Obligations.IgnoredWritesRaiseNothing : Prop :=
  ∀ (s : State) (a : WordIndex) (v : Word),
    (a = 0x00 ∨ a = 0x06 ∨ a = 0x07 ∨ a = 0x1A ∨ a = 0x1B ∨ 0x1C ≤ a.toNat) →
    Gives (exec (.wr32 a v) s) s

/-- 42_commands R152: while BUSY a write to CTRL, CMD, COUNTER, KEY, DIGEST or BINNED sets ERR_BUSY and changes nothing
else; STATUS is exempt, and the other offsets are ignored without a flag. -/
def Obligations.WritesWhileBusySetErrBusyOnly : Prop :=
  ∀ (s : State) (a : WordIndex) (v : Word), s.phase = .busy →
    Gives (exec (.wr32 a v) s) (
      if a = 0x01 ∨ a = 0x02 ∨ a = 0x04 ∨ a = 0x05 ∨ (8 ≤ a.toNat ∧ a.toNat ≤ 0x19) then { s with errBusy := true }
      else if a = 0x03 then { s with
        done := s.done && !v.getLsbD 1, errCmd := s.errCmd && !v.getLsbD 2, errBusy := s.errBusy && !v.getLsbD 3 }
      else s)

/-- 20_memory R51: the read data are valid after a read, and in this model (log 4) after nothing else. -/
def Obligations.ReadDataIsValidAfterAReadOnly : Prop :=
  ∀ i s t, exec i s = .next t → (t.rdata.isSome = true ↔ ∃ a, i = .rd32 a)

/-- 70_reset R210, 42_commands R141: from acceptance to completion every register but STATUS reads as before the command,
whatever inputs `l` come between but a reset and the engine's turn; with none, also of a block that is not live. The inputs
are a list by log 3. -/
def Obligations.ReadsWhileBusyAreOfBeforeTheCommand : Prop :=
  ∀ (s t : State) (o : Op) (l rest : List Input) (a : WordIndex),
    (l ≠ [] → Live s) → s.phase = .idle → exec o.instr s = .next t → t.phase = .busy →
    (∀ e ∈ l, e.lawful = true ∧ e ≠ .engine) → a ≠ 0x03 →
    ∃ u before later w,
      core.run l.length { t with inbox := l ++ rest } = .next u ∧ u.inbox = rest ∧ u.phase = .busy ∧
      exec (.rd32 a) s = .next before ∧ exec (.rd32 a) u = .next later ∧
      before.rdata = some w ∧ later.rdata = some w

/-- 20_memory R50, R52, R67: what the port cannot carry is stopped; what it can is the transaction at offset[7:2]. The
names of the stops and the order of the checks are the model's (log 9). -/
def Obligations.RequestsReachTheirOffset : Prop :=
  ∀ (s : State) (r : HostRequest) rest, Live s → s.inbox = .request r :: rest →
    (r.master = .other → step s = .refused .secondMaster) ∧
    (r.master = .host → r.width ≠ 4 → step s = .refused .accessWidth) ∧
    (r.master = .host → r.width = 4 → (r.addr < Config.blockBase ∨ Config.blockBase + 256 ≤ r.addr) →
      step s = .fault .outsideWindow) ∧
    (∀ off, r.master = .host → r.width = 4 → r.addr = Config.blockBase + off → off < 256 →
      (off % 4 ≠ 0 → step s = .refused .misalignedOffset) ∧
      (off % 4 = 0 → step s = exec
        (if r.write then .wr32 (BitVec.ofNat 6 (off / 4)) r.data else .rd32 (BitVec.ofNat 6 (off / 4)))
        { s with inbox := rest }))

/-! ### Whole-machine rules -/

/-- 10_state R31, R33, R36 and 42_commands R132, R152: every step keeps the invariant. -/
def Obligations.EveryStepKeepsBlockInv : Prop := ∀ s t, BlockInv s → step s = .next t → BlockInv t

/-- 60_exceptions R188: an idle block does nothing until a host write: no register changes by a read, by an idle cycle
or by the engine's turn. -/
def Obligations.IdleBlockDoesNothingWithoutAWrite : Prop :=
  ∀ s t, Live s → s.phase = .idle → nextWrite s = none → ¬NextIsReset s → step s = .next t →
    t = { s with inbox := s.inbox.tail, rdata := t.rdata }

/-- 10_state R23: acceptance alone makes the block BUSY, completion and reset alone make it IDLE. -/
def Obligations.PhaseChangesOnlyByAcceptanceAndCompletion : Prop :=
  ∀ s t, Live s → step s = .next t → t.phase ≠ s.phase →
    (s.phase = .idle ∧ ∃ w, nextWrite s = some (2, w) ∧ decodeCmd w (s.diagEn) = .op t.pendOp) ∨
    (s.phase = .busy ∧ t.done = true ∧ nextWrite s = none) ∨ NextIsReset s

/-- 10_state R27: the error flags are sticky; DONE is cleared by acceptance too. -/
def Obligations.FlagsAreClearedOnlyAsTheSpecSays : Prop :=
  ∀ s t, Live s → step s = .next t →
    (s.errCmd = true → t.errCmd = false → (∃ v, nextWrite s = some (3, v) ∧ v.getLsbD 2 = true) ∨ NextIsReset s) ∧
    (s.errBusy = true → t.errBusy = false → (∃ v, nextWrite s = some (3, v) ∧ v.getLsbD 3 = true) ∨ NextIsReset s) ∧
    (s.done = true → t.done = false →
      (∃ v, nextWrite s = some (3, v) ∧ v.getLsbD 1 = true) ∨ (s.phase = .idle ∧ t.phase = .busy) ∨ NextIsReset s)

/-- 10_state R27, 60_exceptions R170: what sets each flag. -/
def Obligations.FlagsAreSetOnlyAsTheSpecSays : Prop :=
  ∀ s t, Live s → step s = .next t →
    (s.errCmd = false → t.errCmd = true →
      s.phase = .idle ∧ ∃ w, nextWrite s = some (2, w) ∧ decodeCmd w (s.diagEn) = .illegal) ∧
    (s.errBusy = false → t.errBusy = true →
      s.phase = .busy ∧ ∃ a v, nextWrite s = some (a, v) ∧
        (a = 0x01 ∨ a = 0x02 ∨ a = 0x04 ∨ a = 0x05 ∨ (8 ≤ a.toNat ∧ a.toNat ≤ 0x19))) ∧
    (s.done = false → t.done = true → s.phase = .busy ∧ t.phase = .idle)

/-- 10_state R28: COUNTER changes by a host write while IDLE, by ZEROIZE and by reset, and by nothing else. -/
def Obligations.CounterChangesOnlyByWriteZeroizeReset : Prop :=
  ∀ s t, Live s → step s = .next t → t.counter ≠ s.counter →
    (s.phase = .idle ∧ ∃ v, nextWrite s = some (4, v) ∨ nextWrite s = some (5, v)) ∨
    (s.phase = .busy ∧ s.pendOp = .zeroize ∧ t.phase = .idle ∧ t.counter = 0) ∨ NextIsReset s

/-- 70_reset R204: KEY stays until overwritten, ZEROIZE or reset. -/
def Obligations.KeyPersists : Prop :=
  ∀ s t, Live s → step s = .next t → t.key ≠ s.key →
    (s.phase = .idle ∧ ∃ a v, nextWrite s = some (a, v) ∧ 8 ≤ a.toNat ∧ a.toNat ≤ 15) ∨
    (s.phase = .busy ∧ s.pendOp = .zeroize ∧ t.phase = .idle ∧ t.key = 0) ∨ NextIsReset s

/-- 10_state R29: "no path exposes KEY to the host": what a step answers at the ports does not depend on KEY. -/
def Obligations.PortsDoNotShowTheKey : Prop :=
  ∀ (s t : State) (k : Wide), step s = .next t →
    ∃ u, step { s with key := k } = .next u ∧ u.rdata = t.rdata ∧ statusWord u = statusWord t ∧ irq u = irq t

/-- 10_state R34: while IDLE, no step depends on `pend_op`. -/
def Obligations.PendOpIsUnreadWhileIdle : Prop :=
  ∀ (s : State) (o : Op), s.phase = .idle →
    (∀ t, step s = .next t → ∃ u, step { s with pendOp := o } = .next u ∧ u = { t with pendOp := u.pendOp } ∧
      (t.phase = .busy → u.pendOp = t.pendOp)) ∧
    (∀ f, step s = .fault f → step { s with pendOp := o } = .fault f) ∧
    (∀ r, step s = .refused r → step { s with pendOp := o } = .refused r)

/-- 60_exceptions R174, 10_state R35: `irq` rises by a completion or by a write of CTRL, and falls by acceptance, by a
write of STATUS or CTRL and by reset. -/
def Obligations.IrqFollowsDoneAndEnable : Prop :=
  ∀ s t, Live s → step s = .next t →
    irq t = (t.ctrl.getLsbD 1 && t.done) ∧
    (irq s = false → irq t = true →
      (s.phase = .busy ∧ t.phase = .idle ∧ s.irqEn = true) ∨
      (s.phase = .idle ∧ s.done = true ∧ ∃ v, nextWrite s = some (1, v) ∧ v.getLsbD 1 = true)) ∧
    (irq s = true → irq t = false →
      (s.phase = .idle ∧ t.phase = .busy) ∨ (∃ v, nextWrite s = some (3, v) ∧ v.getLsbD 1 = true) ∨
      (s.phase = .idle ∧ ∃ v, nextWrite s = some (1, v) ∧ v.getLsbD 1 = false) ∨ NextIsReset s)

/-- 60_exceptions R173: of a write and a completion at one edge the write comes first: ERR_BUSY is set, and a write of 1
to DONE leaves DONE = 1. -/
def Obligations.WriteThenCompletionAtOneEdge : Prop :=
  ∀ (s : State) (a : WordIndex) (v : Word) rest, Live s → s.phase = .busy →
    s.inbox = .port (encode (.wr32 a v)) :: .engine :: rest →
    ∃ t, core.run 2 s = .next t ∧ t.phase = .idle ∧ t.done = true ∧ t.inbox = rest ∧
      t.errBusy = (if a = 0x03 then s.errBusy && !v.getLsbD 3
        else s.errBusy || decide (a = 0x01 ∨ a = 0x02 ∨ a = 0x04 ∨ a = 0x05 ∨ (8 ≤ a.toNat ∧ a.toNat ≤ 0x19))) ∧
      t.errCmd = (if a = 0x03 then s.errCmd && !v.getLsbD 2 else s.errCmd)

/-- 42_commands R140, 70_reset R214: an accepted command completes, with the operands it had, before the listed inputs
and one quiet step are over, if no reset comes; the poll of `wait` then ends. The fairness is the model's (log 3). -/
def Obligations.AcceptedCommandCompletes : Prop :=
  ∀ s : State, Live s → s.phase = .busy → (∀ e ∈ s.inbox, e.lawful = true) →
    ∃ k t u v, k ≤ s.inbox.length ∧ core.run k s = .next t ∧ t.phase = .busy ∧ step t = .next u ∧
      u.phase = .idle ∧ u.done = true ∧ u.ctrl = s.ctrl ∧
      u.key = (effect s.pendOp s).key ∧ u.counter = (effect s.pendOp s).counter ∧
      u.digest = (effect s.pendOp s).digest ∧ u.offset = (effect s.pendOp s).offset ∧
      u.binned = (effect s.pendOp s).binned ∧ u.code = (effect s.pendOp s).code ∧
      exec (.rd32 0x03) u = .next v ∧ waitDone v = true

/-! ### The computation -/

/-- 40_keyed_hash R98. -/
def Obligations.MessageWordsAreSwappedCounterHalves : Prop :=
  ∀ c : Quad, Blake3.block (be64 c) =
    #v[bswap32 (c.extractLsb' 32 32), bswap32 (c.extractLsb' 0 32), 0, 0, 0, 0, 0, 0, 0, 0, 0, 0, 0, 0, 0, 0]

/-- 41_truncate_reduce R111, R113, R114, R115. -/
def Obligations.TruncationSelectsTheWrappedWindow : Prop :=
  ∀ d : Wide,
    let o := (byteOf d 31).toNat % 28
    (truncate d).1.toNat = o ∧
    (∀ k : Nat, k < 8 → (truncate d).2.extractLsb' (8 * (7 - k)) 8 =
      if k = 0 then byteOf d o &&& 0x7F else byteOf d ((o + k) % 32))

/-- 41_truncate_reduce R116. -/
def Obligations.BinnedRange : Prop :=
  (∀ d : Wide, (truncate d).2.getLsbD 63 = false ∧ (truncate d).2.toNat ≤ 2 ^ 63 - 1) ∧
  (∀ b : Quad, b.toNat ≤ 2 ^ 63 - 1 → ∃ d : Wide, (truncate d).2 = b)

/-- 41_truncate_reduce R117, R118. -/
def Obligations.ReductionRange : Prop :=
  ∀ b : Quad, (reduce b).toNat = b.toNat % 10 ^ 11 ∧ (reduce b).extractLsb' 37 27 = 0 ∧ (hi (reduce b)).toNat ≤ 0x17

/-! ### The host side -/

/-- 60_exceptions R178, R179, R181, for an elapsed time that fits in 64 bits (log 10). -/
def Obligations.CounterDerivation : Prop :=
  ∀ (now epoch : Rat) (interval : Nat),
    deriveCounter now epoch 0 = .intervalError ∧
    (0 < interval → now < epoch → deriveCounter now epoch interval = .timeError) ∧
    (0 < interval → epoch ≤ now → (now - epoch).floor < 2 ^ 64 →
      ∃ c, deriveCounter now epoch interval = .ok c ∧ (c.toNat : Int) = ((now - epoch) / interval).floor)

/-- 60_exceptions R180: monotone in time, equal within a window, and the exact increment after d whole seconds; for
elapsed times that fit in 64 bits (log 10). -/
def Obligations.CounterGrowsWithTime : Prop :=
  ∀ (now later epoch : Rat) (interval : Nat) (c : Quad), 0 < interval → epoch ≤ now → now ≤ later →
    (later - epoch).floor < 2 ^ 64 → deriveCounter now epoch interval = .ok c →
    ∃ c', deriveCounter later epoch interval = .ok c' ∧ c.toNat ≤ c'.toNat ∧
      (later < epoch + (c.toNat + 1) * interval → c' = c) ∧
      (∀ d : Nat, later = now + d →
        (c'.toNat : Int) = c.toNat + ((now - epoch).floor % interval + d) / interval)

/-- 41_truncate_reduce R120. -/
def Obligations.DisplayHasElevenDigits : Prop :=
  ∀ code : Quad, code.toNat < 10 ^ 11 →
    (dec11 code).length = 11 ∧ (∀ x ∈ dec11 code, '0' ≤ x ∧ x ≤ '9') ∧
    (dec11 code).foldl (fun n x => 10 * n + (x.toNat - 48)) 0 = code.toNat

/-- 70_reset R203, 41_truncate_reduce R119: after the boot order and the completion, CODE is the code of the secret and
the counter the host wrote, from any idle state; nothing is written after a failure of the secret source or of the
counter derivation (60_exceptions R182). The model's are that the counter is derived before anything
is written, so that its failure too leaves nothing written, that the writes come in the order R203 lists, no other (both
log 11), and that the engine's turn is a listed input (log 3). -/
def Obligations.BootOrderYieldsTheCode : Prop :=
  (∀ counter ack ctrl, bootProgram .randomBytesError counter ack ctrl = none) ∧
  (∀ k ack ctrl, bootProgram (.ok k) .timeError ack ctrl = none ∧ bootProgram (.ok k) .intervalError ack ctrl = none) ∧
  (∀ (s : State) k c ack ctrl rest, Live s → s.phase = .idle →
    ∃ p u, bootProgram (.ok k) (.ok c) ack ctrl = some p ∧
      core.run (p.length + 1) { s with inbox := presented p ++ .engine :: rest } = .next u ∧
      u.inbox = rest ∧ u.phase = .idle ∧ u.done = true ∧
      u.errCmd = (s.errCmd && !ack) ∧ u.errBusy = (s.errBusy && !ack) ∧
      u.counter = c ∧ (∀ j : Fin 32, byteOf u.key j = k[j]) ∧ u.code = codeOf u.key c)

/-! ### Steps of the pin, and of a busy block -/

/-- 70_reset R200: an edge with `rst_n` high takes no reset, whether it releases the pin or finds it high. That the level is
an input, and that the edge which releases the pin takes no reset, is the model's (log 5). -/
def Obligations.ReleasingTheResetPinChangesNoRegister : Prop :=
  ∀ s, s.inbox.head? = some (.rst true) → Gives (step s) { s with inbox := s.inbox.tail, rstN := true }

/-- 42_commands R141, R152: until it completes, a command keeps its operands and every register: a step that leaves the
block busy changes the flags DONE, ERR_CMD and ERR_BUSY alone. -/
def Obligations.BusyBlockKeepsItsRegisters : Prop :=
  ∀ s t, Live s → s.phase = .busy → step s = .next t → t.phase = .busy →
    t = { s with
      inbox := s.inbox.tail, rdata := t.rdata, done := t.done, errCmd := t.errCmd, errBusy := t.errBusy } ∧
    (s.done = false → t.done = false) ∧ (s.errCmd = false → t.errCmd = false)

/-- 42_commands R139: in diagnostic mode GEN leaves what HASH, TRUNC and REDUCE leave, whatever comes between that is no
host write, while a command is pending and after it. The list of inputs, with one engine's turn for each command, is the
model's (log 3). -/
def Obligations.StagesEqualGenWhateverIsRead : Prop :=
  ∀ (s : State) (p₀ q₀ p₁ q₁ p₂ q₂ p₃ q₃ : List Input), Live s → s.phase = .idle → s.diagEn = true →
    (∀ l ∈ [p₀, q₀, p₁, q₁, p₂, q₂, p₃, q₃], ReadsOnly l) →
    let whole := commandWith .gen p₀ q₀
    let stages := commandWith .hash p₁ q₁ ++ commandWith .trunc p₂ q₂ ++ commandWith .reduce p₃ q₃
    ∃ t u,
      core.run whole.length { s with inbox := whole } = .next t ∧
      core.run stages.length { s with inbox := stages } = .next u ∧
      t.digest = u.digest ∧ t.offset = u.offset ∧ t.binned = u.binned ∧ t.code = u.code ∧
      t.phase = .idle ∧ u.phase = .idle ∧ t.done = true ∧ u.done = true
end

