-- ==== Sys2Proof/Laws/Decode.lean ====
section
/-! SUPPORT. The fields of a command word and of a transaction word. -/

namespace Sys2Proof

/-- A command word with RSV = 0 is its OP field. -/
theorem rsvField_eq_zero_iff (w : Word) : rsvField w = 0 ↔ w.toNat < 16 := by
  rw [← BitVec.toNat_inj]
  simp [rsvField, BitVec.extractLsb'_toNat, Nat.shiftRight_eq_div_pow]
  omega

theorem opField_eq (w : Word) : opField w = w.toNat % 16 := by
  simp [opField, BitVec.extractLsb'_toNat]

/-- The decoder by the value of the word (30_encoding R76). -/
theorem decodeCmd_eq (w : Word) (diag : Bool) :
    decodeCmd w diag =
      if w.toNat = 0 then .nop
      else if w.toNat = 1 then .op .gen
      else if w.toNat = 2 then (if diag then .op .hash else .illegal)
      else if w.toNat = 3 then (if diag then .op .trunc else .illegal)
      else if w.toNat = 4 then (if diag then .op .reduce else .illegal)
      else if w.toNat = 5 then .op .zeroize
      else .illegal := by
  unfold decodeCmd
  rw [opField_eq]
  by_cases h : w.toNat < 16
  · rw [if_neg (by simpa using (rsvField_eq_zero_iff w).2 h), Nat.mod_eq_of_lt h]
    generalize w.toNat = n at *
    interval_cases n <;> rfl
  · rw [if_pos (fun c => h ((rsvField_eq_zero_iff w).1 c))]
    repeat' rw [if_neg (by omega)]

/-- A command's word decodes to it where its mode admits it (30_encoding R71, R72). -/
theorem decodeCmd_word (o : Op) (diag : Bool) :
    decodeCmd o.word diag = if diag = true ∨ o = .gen ∨ o = .zeroize then .op o else .illegal := by
  cases o <;> cases diag <;> decide

@[simp] theorem decodeCmd_nopWord (diag : Bool) : decodeCmd nopWord diag = .nop := by cases diag <;> decide

/-- A word that decodes to a command is its word (30_encoding R75: one word, one form). -/
theorem word_of_decodeCmd (w : Word) (diag : Bool) :
    (∀ o, decodeCmd w diag = .op o → w = o.word) ∧ (decodeCmd w diag = .nop → w = nopWord) := by
  have hw (n : Nat) (h : w.toNat = n) : w = BitVec.ofNat 32 n := by rw [← h, BitVec.ofNat_toNat, BitVec.setWidth_eq]
  rw [decodeCmd_eq]
  constructor
  · intro o h
    split_ifs at h <;> simp only [CmdDecode.op.injEq] at h <;> subst h <;> exact hw _ ‹_›
  · intro h
    split_ifs at h
    exact hw 0 ‹_›

/-- A command word that decodes is the word of its instruction. -/
theorem encode_of_decode_cmd32 (w : Word) (i : Instr) (h : decode (.cmd32 w) = .ok i) : encode i = .cmd32 w := by
  unfold decode at h
  cases hd : decodeCmd w true with
  | illegal => simp [hd] at h
  | nop =>
    simp only [hd, Except.ok.injEq] at h
    rw [← h, (word_of_decodeCmd w true).2 hd]; rfl
  | op o =>
    simp only [hd, Except.ok.injEq] at h
    rw [← h, (word_of_decodeCmd w true).1 o hd]; cases o <;> rfl

/-- A transaction word read back: its write bit, its index and its data. -/
theorem busInstr_busBits (we : Bool) (a : WordIndex) (v : Word) :
    busInstr (busBits we a v) = if we then .wr32 a v else .rd32 a := by
  have app (k : Nat) : (busBits we a v).getLsbD k =
      if k < 32 then v.getLsbD k else if k - 32 < 6 then a.getLsbD (k - 32) else (BitVec.ofBool we).getLsbD (k - 32 - 6) := by
    change (BitVec.ofBool we ++ a ++ v : BitVec (1 + 6 + 32)).getLsbD k = _
    rw [BitVec.getLsbD_append, BitVec.getLsbD_append]
  have e1 : (busBits we a v).getLsbD 38 = we := by
    rw [app]; cases we <;> rfl
  have e2 : (busBits we a v).extractLsb' 32 6 = a := by
    ext k hk
    rw [BitVec.getElem_extractLsb', app]
    simp [hk, BitVec.getLsbD_eq_getElem]
  have e3 : (busBits we a v).extractLsb' 0 32 = v := by
    ext k hk
    rw [BitVec.getElem_extractLsb', app]
    simp [hk, BitVec.getLsbD_eq_getElem]
  rw [busInstr, e1, e2, e3]

end Sys2Proof
end

