-- ==== Sys2Proof/Laws/State.lean ====
section
/-! SUPPORT. What each update of the state leaves in each field. -/

namespace Sys2Proof.Machine

@[simp] theorem raiseErrCmd_ctrl (s : State) : (raiseErrCmd s).ctrl = s.ctrl := rfl
@[simp] theorem raiseErrCmd_done (s : State) : (raiseErrCmd s).done = s.done := rfl
@[simp] theorem raiseErrCmd_errCmd (s : State) : (raiseErrCmd s).errCmd = true := rfl
@[simp] theorem raiseErrCmd_errBusy (s : State) : (raiseErrCmd s).errBusy = s.errBusy := rfl
@[simp] theorem raiseErrCmd_counter (s : State) : (raiseErrCmd s).counter = s.counter := rfl
@[simp] theorem raiseErrCmd_key (s : State) : (raiseErrCmd s).key = s.key := rfl
@[simp] theorem raiseErrCmd_digest (s : State) : (raiseErrCmd s).digest = s.digest := rfl
@[simp] theorem raiseErrCmd_offset (s : State) : (raiseErrCmd s).offset = s.offset := rfl
@[simp] theorem raiseErrCmd_binned (s : State) : (raiseErrCmd s).binned = s.binned := rfl
@[simp] theorem raiseErrCmd_code (s : State) : (raiseErrCmd s).code = s.code := rfl
@[simp] theorem raiseErrCmd_phase (s : State) : (raiseErrCmd s).phase = s.phase := rfl
@[simp] theorem raiseErrCmd_pendOp (s : State) : (raiseErrCmd s).pendOp = s.pendOp := rfl
@[simp] theorem raiseErrCmd_rdata (s : State) : (raiseErrCmd s).rdata = s.rdata := rfl
@[simp] theorem raiseErrCmd_rstN (s : State) : (raiseErrCmd s).rstN = s.rstN := rfl
@[simp] theorem raiseErrCmd_everReset (s : State) : (raiseErrCmd s).everReset = s.everReset := rfl
@[simp] theorem raiseErrCmd_inbox (s : State) : (raiseErrCmd s).inbox = s.inbox := rfl
@[simp] theorem raiseErrCmd_freeCount (s : State) : (raiseErrCmd s).freeCount = s.freeCount := rfl

@[simp] theorem raiseErrBusy_ctrl (s : State) : (raiseErrBusy s).ctrl = s.ctrl := rfl
@[simp] theorem raiseErrBusy_done (s : State) : (raiseErrBusy s).done = s.done := rfl
@[simp] theorem raiseErrBusy_errCmd (s : State) : (raiseErrBusy s).errCmd = s.errCmd := rfl
@[simp] theorem raiseErrBusy_errBusy (s : State) : (raiseErrBusy s).errBusy = true := rfl
@[simp] theorem raiseErrBusy_counter (s : State) : (raiseErrBusy s).counter = s.counter := rfl
@[simp] theorem raiseErrBusy_key (s : State) : (raiseErrBusy s).key = s.key := rfl
@[simp] theorem raiseErrBusy_digest (s : State) : (raiseErrBusy s).digest = s.digest := rfl
@[simp] theorem raiseErrBusy_offset (s : State) : (raiseErrBusy s).offset = s.offset := rfl
@[simp] theorem raiseErrBusy_binned (s : State) : (raiseErrBusy s).binned = s.binned := rfl
@[simp] theorem raiseErrBusy_code (s : State) : (raiseErrBusy s).code = s.code := rfl
@[simp] theorem raiseErrBusy_phase (s : State) : (raiseErrBusy s).phase = s.phase := rfl
@[simp] theorem raiseErrBusy_pendOp (s : State) : (raiseErrBusy s).pendOp = s.pendOp := rfl
@[simp] theorem raiseErrBusy_rdata (s : State) : (raiseErrBusy s).rdata = s.rdata := rfl
@[simp] theorem raiseErrBusy_rstN (s : State) : (raiseErrBusy s).rstN = s.rstN := rfl
@[simp] theorem raiseErrBusy_everReset (s : State) : (raiseErrBusy s).everReset = s.everReset := rfl
@[simp] theorem raiseErrBusy_inbox (s : State) : (raiseErrBusy s).inbox = s.inbox := rfl
@[simp] theorem raiseErrBusy_freeCount (s : State) : (raiseErrBusy s).freeCount = s.freeCount := rfl

@[simp] theorem writeStatus_ctrl (v : Word) (s : State) : (writeStatus v s).ctrl = s.ctrl := rfl
@[simp] theorem writeStatus_done (v : Word) (s : State) : (writeStatus v s).done = (s.done && !v.getLsbD 1) := rfl
@[simp] theorem writeStatus_errCmd (v : Word) (s : State) : (writeStatus v s).errCmd = (s.errCmd && !v.getLsbD 2) := rfl
@[simp] theorem writeStatus_errBusy (v : Word) (s : State) : (writeStatus v s).errBusy = (s.errBusy && !v.getLsbD 3) := rfl
@[simp] theorem writeStatus_counter (v : Word) (s : State) : (writeStatus v s).counter = s.counter := rfl
@[simp] theorem writeStatus_key (v : Word) (s : State) : (writeStatus v s).key = s.key := rfl
@[simp] theorem writeStatus_digest (v : Word) (s : State) : (writeStatus v s).digest = s.digest := rfl
@[simp] theorem writeStatus_offset (v : Word) (s : State) : (writeStatus v s).offset = s.offset := rfl
@[simp] theorem writeStatus_binned (v : Word) (s : State) : (writeStatus v s).binned = s.binned := rfl
@[simp] theorem writeStatus_code (v : Word) (s : State) : (writeStatus v s).code = s.code := rfl
@[simp] theorem writeStatus_phase (v : Word) (s : State) : (writeStatus v s).phase = s.phase := rfl
@[simp] theorem writeStatus_pendOp (v : Word) (s : State) : (writeStatus v s).pendOp = s.pendOp := rfl
@[simp] theorem writeStatus_rdata (v : Word) (s : State) : (writeStatus v s).rdata = s.rdata := rfl
@[simp] theorem writeStatus_rstN (v : Word) (s : State) : (writeStatus v s).rstN = s.rstN := rfl
@[simp] theorem writeStatus_everReset (v : Word) (s : State) : (writeStatus v s).everReset = s.everReset := rfl
@[simp] theorem writeStatus_inbox (v : Word) (s : State) : (writeStatus v s).inbox = s.inbox := rfl
@[simp] theorem writeStatus_freeCount (v : Word) (s : State) : (writeStatus v s).freeCount = s.freeCount := rfl

@[simp] theorem clearIntermediates_ctrl (s : State) : (clearIntermediates s).ctrl = s.ctrl := rfl
@[simp] theorem clearIntermediates_done (s : State) : (clearIntermediates s).done = s.done := rfl
@[simp] theorem clearIntermediates_errCmd (s : State) : (clearIntermediates s).errCmd = s.errCmd := rfl
@[simp] theorem clearIntermediates_errBusy (s : State) : (clearIntermediates s).errBusy = s.errBusy := rfl
@[simp] theorem clearIntermediates_counter (s : State) : (clearIntermediates s).counter = s.counter := rfl
@[simp] theorem clearIntermediates_key (s : State) : (clearIntermediates s).key = s.key := rfl
@[simp] theorem clearIntermediates_digest (s : State) : (clearIntermediates s).digest = 0 := rfl
@[simp] theorem clearIntermediates_offset (s : State) : (clearIntermediates s).offset = 0 := rfl
@[simp] theorem clearIntermediates_binned (s : State) : (clearIntermediates s).binned = 0 := rfl
@[simp] theorem clearIntermediates_code (s : State) : (clearIntermediates s).code = s.code := rfl
@[simp] theorem clearIntermediates_phase (s : State) : (clearIntermediates s).phase = s.phase := rfl
@[simp] theorem clearIntermediates_pendOp (s : State) : (clearIntermediates s).pendOp = s.pendOp := rfl
@[simp] theorem clearIntermediates_rdata (s : State) : (clearIntermediates s).rdata = s.rdata := rfl
@[simp] theorem clearIntermediates_rstN (s : State) : (clearIntermediates s).rstN = s.rstN := rfl
@[simp] theorem clearIntermediates_everReset (s : State) : (clearIntermediates s).everReset = s.everReset := rfl
@[simp] theorem clearIntermediates_inbox (s : State) : (clearIntermediates s).inbox = s.inbox := rfl
@[simp] theorem clearIntermediates_freeCount (s : State) : (clearIntermediates s).freeCount = s.freeCount := rfl

@[simp] theorem writeCtrLo_ctrl (v : Word) (s : State) : (writeCtrLo v s).ctrl = s.ctrl := rfl
@[simp] theorem writeCtrLo_done (v : Word) (s : State) : (writeCtrLo v s).done = s.done := rfl
@[simp] theorem writeCtrLo_errCmd (v : Word) (s : State) : (writeCtrLo v s).errCmd = s.errCmd := rfl
@[simp] theorem writeCtrLo_errBusy (v : Word) (s : State) : (writeCtrLo v s).errBusy = s.errBusy := rfl
@[simp] theorem writeCtrLo_counter (v : Word) (s : State) : (writeCtrLo v s).counter = quad (hi s.counter) v := rfl
@[simp] theorem writeCtrLo_key (v : Word) (s : State) : (writeCtrLo v s).key = s.key := rfl
@[simp] theorem writeCtrLo_digest (v : Word) (s : State) : (writeCtrLo v s).digest = s.digest := rfl
@[simp] theorem writeCtrLo_offset (v : Word) (s : State) : (writeCtrLo v s).offset = s.offset := rfl
@[simp] theorem writeCtrLo_binned (v : Word) (s : State) : (writeCtrLo v s).binned = s.binned := rfl
@[simp] theorem writeCtrLo_code (v : Word) (s : State) : (writeCtrLo v s).code = s.code := rfl
@[simp] theorem writeCtrLo_phase (v : Word) (s : State) : (writeCtrLo v s).phase = s.phase := rfl
@[simp] theorem writeCtrLo_pendOp (v : Word) (s : State) : (writeCtrLo v s).pendOp = s.pendOp := rfl
@[simp] theorem writeCtrLo_rdata (v : Word) (s : State) : (writeCtrLo v s).rdata = s.rdata := rfl
@[simp] theorem writeCtrLo_rstN (v : Word) (s : State) : (writeCtrLo v s).rstN = s.rstN := rfl
@[simp] theorem writeCtrLo_everReset (v : Word) (s : State) : (writeCtrLo v s).everReset = s.everReset := rfl
@[simp] theorem writeCtrLo_inbox (v : Word) (s : State) : (writeCtrLo v s).inbox = s.inbox := rfl
@[simp] theorem writeCtrLo_freeCount (v : Word) (s : State) : (writeCtrLo v s).freeCount = s.freeCount := rfl

@[simp] theorem writeCtrHi_ctrl (v : Word) (s : State) : (writeCtrHi v s).ctrl = s.ctrl := rfl
@[simp] theorem writeCtrHi_done (v : Word) (s : State) : (writeCtrHi v s).done = s.done := rfl
@[simp] theorem writeCtrHi_errCmd (v : Word) (s : State) : (writeCtrHi v s).errCmd = s.errCmd := rfl
@[simp] theorem writeCtrHi_errBusy (v : Word) (s : State) : (writeCtrHi v s).errBusy = s.errBusy := rfl
@[simp] theorem writeCtrHi_counter (v : Word) (s : State) : (writeCtrHi v s).counter = quad v (lo s.counter) := rfl
@[simp] theorem writeCtrHi_key (v : Word) (s : State) : (writeCtrHi v s).key = s.key := rfl
@[simp] theorem writeCtrHi_digest (v : Word) (s : State) : (writeCtrHi v s).digest = s.digest := rfl
@[simp] theorem writeCtrHi_offset (v : Word) (s : State) : (writeCtrHi v s).offset = s.offset := rfl
@[simp] theorem writeCtrHi_binned (v : Word) (s : State) : (writeCtrHi v s).binned = s.binned := rfl
@[simp] theorem writeCtrHi_code (v : Word) (s : State) : (writeCtrHi v s).code = s.code := rfl
@[simp] theorem writeCtrHi_phase (v : Word) (s : State) : (writeCtrHi v s).phase = s.phase := rfl
@[simp] theorem writeCtrHi_pendOp (v : Word) (s : State) : (writeCtrHi v s).pendOp = s.pendOp := rfl
@[simp] theorem writeCtrHi_rdata (v : Word) (s : State) : (writeCtrHi v s).rdata = s.rdata := rfl
@[simp] theorem writeCtrHi_rstN (v : Word) (s : State) : (writeCtrHi v s).rstN = s.rstN := rfl
@[simp] theorem writeCtrHi_everReset (v : Word) (s : State) : (writeCtrHi v s).everReset = s.everReset := rfl
@[simp] theorem writeCtrHi_inbox (v : Word) (s : State) : (writeCtrHi v s).inbox = s.inbox := rfl
@[simp] theorem writeCtrHi_freeCount (v : Word) (s : State) : (writeCtrHi v s).freeCount = s.freeCount := rfl

@[simp] theorem writeKey_ctrl (i : BitVec 3) (v : Word) (s : State) : (writeKey i v s).ctrl = s.ctrl := rfl
@[simp] theorem writeKey_done (i : BitVec 3) (v : Word) (s : State) : (writeKey i v s).done = s.done := rfl
@[simp] theorem writeKey_errCmd (i : BitVec 3) (v : Word) (s : State) : (writeKey i v s).errCmd = s.errCmd := rfl
@[simp] theorem writeKey_errBusy (i : BitVec 3) (v : Word) (s : State) : (writeKey i v s).errBusy = s.errBusy := rfl
@[simp] theorem writeKey_counter (i : BitVec 3) (v : Word) (s : State) : (writeKey i v s).counter = s.counter := rfl
@[simp] theorem writeKey_key (i : BitVec 3) (v : Word) (s : State) : (writeKey i v s).key = setWord s.key i v := rfl
@[simp] theorem writeKey_digest (i : BitVec 3) (v : Word) (s : State) : (writeKey i v s).digest = s.digest := rfl
@[simp] theorem writeKey_offset (i : BitVec 3) (v : Word) (s : State) : (writeKey i v s).offset = s.offset := rfl
@[simp] theorem writeKey_binned (i : BitVec 3) (v : Word) (s : State) : (writeKey i v s).binned = s.binned := rfl
@[simp] theorem writeKey_code (i : BitVec 3) (v : Word) (s : State) : (writeKey i v s).code = s.code := rfl
@[simp] theorem writeKey_phase (i : BitVec 3) (v : Word) (s : State) : (writeKey i v s).phase = s.phase := rfl
@[simp] theorem writeKey_pendOp (i : BitVec 3) (v : Word) (s : State) : (writeKey i v s).pendOp = s.pendOp := rfl
@[simp] theorem writeKey_rdata (i : BitVec 3) (v : Word) (s : State) : (writeKey i v s).rdata = s.rdata := rfl
@[simp] theorem writeKey_rstN (i : BitVec 3) (v : Word) (s : State) : (writeKey i v s).rstN = s.rstN := rfl
@[simp] theorem writeKey_everReset (i : BitVec 3) (v : Word) (s : State) : (writeKey i v s).everReset = s.everReset := rfl
@[simp] theorem writeKey_inbox (i : BitVec 3) (v : Word) (s : State) : (writeKey i v s).inbox = s.inbox := rfl
@[simp] theorem writeKey_freeCount (i : BitVec 3) (v : Word) (s : State) : (writeKey i v s).freeCount = s.freeCount := rfl

@[simp] theorem accept_ctrl (o : Op) (s : State) : (accept o s).ctrl = s.ctrl := rfl
@[simp] theorem accept_done (o : Op) (s : State) : (accept o s).done = false := rfl
@[simp] theorem accept_errCmd (o : Op) (s : State) : (accept o s).errCmd = s.errCmd := rfl
@[simp] theorem accept_errBusy (o : Op) (s : State) : (accept o s).errBusy = s.errBusy := rfl
@[simp] theorem accept_counter (o : Op) (s : State) : (accept o s).counter = s.counter := rfl
@[simp] theorem accept_key (o : Op) (s : State) : (accept o s).key = s.key := rfl
@[simp] theorem accept_digest (o : Op) (s : State) : (accept o s).digest = s.digest := rfl
@[simp] theorem accept_offset (o : Op) (s : State) : (accept o s).offset = s.offset := rfl
@[simp] theorem accept_binned (o : Op) (s : State) : (accept o s).binned = s.binned := rfl
@[simp] theorem accept_code (o : Op) (s : State) : (accept o s).code = s.code := rfl
@[simp] theorem accept_phase (o : Op) (s : State) : (accept o s).phase = .busy := rfl
@[simp] theorem accept_pendOp (o : Op) (s : State) : (accept o s).pendOp = o := rfl
@[simp] theorem accept_rdata (o : Op) (s : State) : (accept o s).rdata = s.rdata := rfl
@[simp] theorem accept_rstN (o : Op) (s : State) : (accept o s).rstN = s.rstN := rfl
@[simp] theorem accept_everReset (o : Op) (s : State) : (accept o s).everReset = s.everReset := rfl
@[simp] theorem accept_inbox (o : Op) (s : State) : (accept o s).inbox = s.inbox := rfl
@[simp] theorem accept_freeCount (o : Op) (s : State) : (accept o s).freeCount = s.freeCount := rfl

@[simp] theorem answer_ctrl (v : Word) (s : State) : (answer v s).ctrl = s.ctrl := rfl
@[simp] theorem answer_done (v : Word) (s : State) : (answer v s).done = s.done := rfl
@[simp] theorem answer_errCmd (v : Word) (s : State) : (answer v s).errCmd = s.errCmd := rfl
@[simp] theorem answer_errBusy (v : Word) (s : State) : (answer v s).errBusy = s.errBusy := rfl
@[simp] theorem answer_counter (v : Word) (s : State) : (answer v s).counter = s.counter := rfl
@[simp] theorem answer_key (v : Word) (s : State) : (answer v s).key = s.key := rfl
@[simp] theorem answer_digest (v : Word) (s : State) : (answer v s).digest = s.digest := rfl
@[simp] theorem answer_offset (v : Word) (s : State) : (answer v s).offset = s.offset := rfl
@[simp] theorem answer_binned (v : Word) (s : State) : (answer v s).binned = s.binned := rfl
@[simp] theorem answer_code (v : Word) (s : State) : (answer v s).code = s.code := rfl
@[simp] theorem answer_phase (v : Word) (s : State) : (answer v s).phase = s.phase := rfl
@[simp] theorem answer_pendOp (v : Word) (s : State) : (answer v s).pendOp = s.pendOp := rfl
@[simp] theorem answer_rdata (v : Word) (s : State) : (answer v s).rdata = some v := rfl
@[simp] theorem answer_rstN (v : Word) (s : State) : (answer v s).rstN = s.rstN := rfl
@[simp] theorem answer_everReset (v : Word) (s : State) : (answer v s).everReset = s.everReset := rfl
@[simp] theorem answer_inbox (v : Word) (s : State) : (answer v s).inbox = s.inbox := rfl
@[simp] theorem answer_freeCount (v : Word) (s : State) : (answer v s).freeCount = s.freeCount := rfl

@[simp] theorem noAnswer_ctrl (s : State) : (noAnswer s).ctrl = s.ctrl := rfl
@[simp] theorem noAnswer_done (s : State) : (noAnswer s).done = s.done := rfl
@[simp] theorem noAnswer_errCmd (s : State) : (noAnswer s).errCmd = s.errCmd := rfl
@[simp] theorem noAnswer_errBusy (s : State) : (noAnswer s).errBusy = s.errBusy := rfl
@[simp] theorem noAnswer_counter (s : State) : (noAnswer s).counter = s.counter := rfl
@[simp] theorem noAnswer_key (s : State) : (noAnswer s).key = s.key := rfl
@[simp] theorem noAnswer_digest (s : State) : (noAnswer s).digest = s.digest := rfl
@[simp] theorem noAnswer_offset (s : State) : (noAnswer s).offset = s.offset := rfl
@[simp] theorem noAnswer_binned (s : State) : (noAnswer s).binned = s.binned := rfl
@[simp] theorem noAnswer_code (s : State) : (noAnswer s).code = s.code := rfl
@[simp] theorem noAnswer_phase (s : State) : (noAnswer s).phase = s.phase := rfl
@[simp] theorem noAnswer_pendOp (s : State) : (noAnswer s).pendOp = s.pendOp := rfl
@[simp] theorem noAnswer_rdata (s : State) : (noAnswer s).rdata = none := rfl
@[simp] theorem noAnswer_rstN (s : State) : (noAnswer s).rstN = s.rstN := rfl
@[simp] theorem noAnswer_everReset (s : State) : (noAnswer s).everReset = s.everReset := rfl
@[simp] theorem noAnswer_inbox (s : State) : (noAnswer s).inbox = s.inbox := rfl
@[simp] theorem noAnswer_freeCount (s : State) : (noAnswer s).freeCount = s.freeCount := rfl

@[simp] theorem finish_ctrl (s : State) : (finish s).ctrl = s.ctrl := rfl
@[simp] theorem finish_done (s : State) : (finish s).done = true := rfl
@[simp] theorem finish_errCmd (s : State) : (finish s).errCmd = s.errCmd := rfl
@[simp] theorem finish_errBusy (s : State) : (finish s).errBusy = s.errBusy := rfl
@[simp] theorem finish_counter (s : State) : (finish s).counter = s.counter := rfl
@[simp] theorem finish_key (s : State) : (finish s).key = s.key := rfl
@[simp] theorem finish_digest (s : State) : (finish s).digest = s.digest := rfl
@[simp] theorem finish_offset (s : State) : (finish s).offset = s.offset := rfl
@[simp] theorem finish_binned (s : State) : (finish s).binned = s.binned := rfl
@[simp] theorem finish_code (s : State) : (finish s).code = s.code := rfl
@[simp] theorem finish_phase (s : State) : (finish s).phase = .idle := rfl
@[simp] theorem finish_pendOp (s : State) : (finish s).pendOp = s.pendOp := rfl
@[simp] theorem finish_rdata (s : State) : (finish s).rdata = s.rdata := rfl
@[simp] theorem finish_rstN (s : State) : (finish s).rstN = s.rstN := rfl
@[simp] theorem finish_everReset (s : State) : (finish s).everReset = s.everReset := rfl
@[simp] theorem finish_inbox (s : State) : (finish s).inbox = s.inbox := rfl
@[simp] theorem finish_freeCount (s : State) : (finish s).freeCount = s.freeCount := rfl

@[simp] theorem takeReset_ctrl (s : State) : (takeReset s).ctrl = 0 := rfl
@[simp] theorem takeReset_done (s : State) : (takeReset s).done = false := rfl
@[simp] theorem takeReset_errCmd (s : State) : (takeReset s).errCmd = false := rfl
@[simp] theorem takeReset_errBusy (s : State) : (takeReset s).errBusy = false := rfl
@[simp] theorem takeReset_counter (s : State) : (takeReset s).counter = 0 := rfl
@[simp] theorem takeReset_key (s : State) : (takeReset s).key = 0 := rfl
@[simp] theorem takeReset_digest (s : State) : (takeReset s).digest = 0 := rfl
@[simp] theorem takeReset_offset (s : State) : (takeReset s).offset = 0 := rfl
@[simp] theorem takeReset_binned (s : State) : (takeReset s).binned = 0 := rfl
@[simp] theorem takeReset_code (s : State) : (takeReset s).code = 0 := rfl
@[simp] theorem takeReset_phase (s : State) : (takeReset s).phase = .idle := rfl
@[simp] theorem takeReset_pendOp (s : State) : (takeReset s).pendOp = Config.freeOp s.freeCount := rfl
@[simp] theorem takeReset_rdata (s : State) : (takeReset s).rdata = none := rfl
@[simp] theorem takeReset_rstN (s : State) : (takeReset s).rstN = s.rstN := rfl
@[simp] theorem takeReset_everReset (s : State) : (takeReset s).everReset = true := rfl
@[simp] theorem takeReset_inbox (s : State) : (takeReset s).inbox = s.inbox := rfl
@[simp] theorem takeReset_freeCount (s : State) : (takeReset s).freeCount = s.freeCount + 1 := rfl

end Sys2Proof.Machine
end

