-- ==== Sys2Proof/Laws/Operands.lean ====
section
/-! SUPPORT. Reading a word, a half or a byte after writing one, and the register map read both ways. -/

namespace Sys2Proof.Machine

/-- Bit k of HI ++ LO. -/
theorem getLsbD_quad (h l : Word) (k : Nat) :
    (quad h l).getLsbD k = if k < 32 then l.getLsbD k else h.getLsbD (k - 32) := by
  change (h ++ l : BitVec (32 + 32)).getLsbD k = _
  rw [BitVec.getLsbD_append]

@[simp] theorem lo_quad (h l : Word) : lo (quad h l) = l := by
  ext k hk
  rw [lo, BitVec.getElem_extractLsb', getLsbD_quad]
  simp [hk, BitVec.getLsbD_eq_getElem]

@[simp] theorem hi_quad (h l : Word) : hi (quad h l) = h := by
  ext k hk
  rw [hi, BitVec.getElem_extractLsb', getLsbD_quad]
  simp [hk, BitVec.getLsbD_eq_getElem]

@[simp] theorem quad_hi_lo (q : Quad) : quad (hi q) (lo q) = q := by
  ext k hk
  rw [← BitVec.getLsbD_eq_getElem, getLsbD_quad]
  split
  · simp_all [lo]
  · have e : 32 + (k - 32) = k := by omega
    have lt : k - 32 < 32 := by omega
    simp only [hi, BitVec.getLsbD_extractLsb', e, lt, decide_true, Bool.true_and]
    exact BitVec.getLsbD_eq_getElem hk

/-- A word is unchanged by a write to another word, and is the word written by a write to itself. -/
theorem wordOf_setWord (w : Wide) (i j : BitVec 3) (v : Word) :
    wordOf (setWord w i v) j = if j = i then v else wordOf w j := by
  have hi := i.isLt
  have hj := j.isLt
  ext k hk
  by_cases h : j = i
  · subst h
    simp only [wordOf, setWord, BitVec.getElem_extractLsb', BitVec.getLsbD_or, BitVec.getLsbD_and, BitVec.getLsbD_not,
      BitVec.getLsbD_shiftLeft, BitVec.getLsbD_setWidth, if_true]
    have e : 32 * j.toNat + k - 32 * j.toNat = k := by omega
    have ones : (4294967295 : Word).getLsbD k = true := by
      have : (4294967295 : Word) = BitVec.allOnes 32 := by decide
      rw [this, BitVec.getLsbD_allOnes]; simpa using hk
    rw [e, ones]
    have b : 32 * j.toNat + k < 256 := by omega
    have b' : k < 256 := by omega
    simp [b, b', BitVec.getLsbD_eq_getElem, hk]
  · have hne : j.toNat ≠ i.toNat := fun c => h (BitVec.eq_of_toNat_eq c)
    simp only [wordOf, setWord, BitVec.getElem_extractLsb', BitVec.getLsbD_or, BitVec.getLsbD_and, BitVec.getLsbD_not,
      BitVec.getLsbD_shiftLeft, BitVec.getLsbD_setWidth, h, if_false]
    have b : 32 * j.toNat + k < 256 := by omega
    rcases Nat.lt_or_gt_of_ne hne with lt | gt
    · have : 32 * j.toNat + k < 32 * i.toNat := by omega
      simp [this, b]
    · have big : 32 ≤ 32 * j.toNat + k - 32 * i.toNat := by omega
      have z (x : Word) : x.getLsbD (32 * j.toNat + k - 32 * i.toNat) = false := BitVec.getLsbD_of_ge x _ big
      simp [z, b]

/-- Byte 4i + m is lane m of word i (10_state R29, R30). -/
theorem byteOf_eq_lane (w : Wide) (i : BitVec 3) (m : Nat) (hm : m < 4) :
    byteOf w (4 * i.toNat + m) = (wordOf w i).extractLsb' (8 * m) 8 := by
  ext k hk
  have : 8 * m + k < 32 := by omega
  simp only [byteOf, wordOf, BitVec.getElem_extractLsb', BitVec.getLsbD_extractLsb', this, decide_true, Bool.true_and]
  congr 1; omega

/-- Each register is found at its index. -/
@[simp] theorem regAt_regIndex (r : Reg) : regAt (regIndex r) = some r := by
  cases r <;> first | rfl | (rename_i i; revert i; decide)

/-- A register is found at its index only. -/
theorem regIndex_of_regAt (a : WordIndex) (r : Reg) (h : regAt a = some r) : a = regIndex r := by
  revert a; cases r <;> first | decide | (rename_i i; revert i; decide)

end Sys2Proof.Machine
end

