-- ==== Sys2Proof/Laws/Truncate.lean ====
section
/-! SUPPORT. The window, its bytes, the range of the assembled value and of the reduced one. -/

namespace Sys2Proof.Machine

/-- The circular index of the digest is the index mod 32 (41_truncate_reduce R112). -/
theorem circularIndex_bytesOf (d : Wide) (i : Nat) : circularIndex (bytesOf d) i = byteOf d (i % 32) := by
  have h : i % 32 < 32 := Nat.mod_lt _ (by decide)
  simp [circularIndex, bytesOf, List.getD, h]

/-- The offset is the last byte mod 28 (41_truncate_reduce R111). -/
theorem truncOffset_toNat (d : Wide) : (truncOffset d).toNat = (byteOf d 31).toNat % 28 := by
  have h : (byteOf d 31).toNat % 28 < 32 := by omega
  simp only [truncOffset, Config.offsetByte, Config.offsetMod, BitVec.toNat_ofNat]
  exact Nat.mod_eq_of_lt h

theorem truncOffset_lt (d : Wide) : (truncOffset d).toNat < 28 := by
  rw [truncOffset_toNat]; omega

/-- A selected byte is the digest byte at `(offset + k) mod 32`, masked (41_truncate_reduce R113, R114). -/
theorem selected_eq (d : Wide) (k : Nat) :
    selected d k = if k = 0 then byteOf d (truncOffset d).toNat &&& 0x7F
      else byteOf d (((truncOffset d).toNat + k) % 32) := by
  unfold selected
  rw [circularIndex_bytesOf]
  split
  · next h =>
    subst h
    rw [Nat.add_zero, Nat.mod_eq_of_lt (Nat.lt_trans (truncOffset_lt d) (by decide))]
    rfl
  · next h =>
    simp only [windowMask, h, if_false, Config.maskRest]
    exact BitVec.and_allOnes

/-- Bit n of the assembled value is a bit of the byte at its place (41_truncate_reduce R115). -/
theorem getLsbD_assemble (d : Wide) (n : Nat) (h : n < 64) :
    (assemble d).getLsbD n = (selected d (7 - n / 8)).getLsbD (n % 8) := by
  change (selected d 0 ++ selected d 1 ++ selected d 2 ++ selected d 3 ++ selected d 4 ++ selected d 5 ++ selected d 6 ++
    selected d 7 : BitVec (8 + 8 + 8 + 8 + 8 + 8 + 8 + 8)).getLsbD n = _
  simp only [BitVec.getLsbD_append]
  interval_cases n <;> rfl

/-- Byte k of the window, at bits 63 - 8k : 56 - 8k (41_truncate_reduce R115). -/
theorem assemble_byte (d : Wide) (k : Nat) (h : k < 8) : (assemble d).extractLsb' (8 * (7 - k)) 8 = selected d k := by
  ext j hj
  rw [BitVec.getElem_extractLsb', getLsbD_assemble d _ (by omega)]
  have e1 : 7 - (8 * (7 - k) + j) / 8 = k := by omega
  have e2 : (8 * (7 - k) + j) % 8 = j := by omega
  rw [e1, e2, BitVec.getLsbD_eq_getElem hj]

/-- The top bit of the assembled value is clear (41_truncate_reduce R116). -/
theorem assemble_top (d : Wide) : (assemble d).getLsbD 63 = false := by
  rw [getLsbD_assemble d 63 (by decide), selected_eq, if_pos (by decide), BitVec.getLsbD_and]
  exact Bool.and_false _

theorem assemble_lt (d : Wide) : (assemble d).toNat < 2 ^ 63 := by
  have h := assemble_top d
  rw [← BitVec.msb_eq_getLsbD_last (x := assemble d)] at h
  exact BitVec.toNat_lt_of_msb_false h

/-- The remainder is exact (41_truncate_reduce R117). -/
theorem reduce_toNat (b : Quad) : (reduce b).toNat = b.toNat % 10 ^ 11 := by
  simp [reduce, Config.modulus, BitVec.toNat_umod]

/-- The code is below 10^11 (41_truncate_reduce R118). -/
theorem reduce_lt (b : Quad) : (reduce b).toNat < 10 ^ 11 := by
  rw [reduce_toNat]; exact Nat.mod_lt _ (by decide)

end Sys2Proof.Machine
end

