-- ==== Sys2Proof/Laws/Ops.lean ====
section
/-! SUPPORT. What each shared operation can do. -/

namespace Sys2Proof.Machine

/-! ### Reading -/

@[simp] theorem memRead_regIndex (r : Reg) (s : State) : memRead (regIndex r) s = readReg r s := by
  simp [memRead]

/-- What a read answers depends on the registers it shows, not on the inputs, the port or KEY. -/
theorem memRead_congr (a : WordIndex) (s t : State) (hc : t.ctrl = s.ctrl) (hs : statusWord t = statusWord s)
    (hn : t.counter = s.counter) (hd : t.digest = s.digest) (ho : t.offset = s.offset) (hb : t.binned = s.binned)
    (hx : t.code = s.code) : memRead a t = memRead a s := by
  unfold memRead
  cases regAt a with
  | none => rfl
  | some r => cases r <;> simp [readReg, ctrlWord, State.diagEn, hc, hs, hn, hd, ho, hb, hx]

/-! ### The BUSY check -/

theorem busy_eq_true (s : State) : s.busy = true ↔ s.phase = .busy := by simp [State.busy]

theorem whileIdle_of_idle (f : State → State) (s : State) (h : s.phase = .idle) : whileIdle f s = f s := by
  simp [whileIdle, State.busy, h]

theorem whileIdle_of_busy (f : State → State) (s : State) (h : s.phase = .busy) : whileIdle f s = raiseErrBusy s := by
  simp [whileIdle, State.busy, h]

/-! ### Writing -/

@[simp] theorem memWrite_regIndex (r : Reg) (v : Word) (s : State) : memWrite (regIndex r) v s = writeReg r v s := by
  simp [memWrite]

/-- Everything a write can do to the state: it raises a flag, clears flags, accepts a command, or writes one register
while IDLE. -/
theorem memWrite_cases (a : WordIndex) (v : Word) (s : State) :
    memWrite a v s = s ∨
    (a = 3 ∧ memWrite a v s = writeStatus v s) ∨
    (s.phase = .busy ∧ (a = 1 ∨ a = 2 ∨ a = 4 ∨ a = 5 ∨ (8 ≤ a.toNat ∧ a.toNat ≤ 0x19)) ∧
      memWrite a v s = raiseErrBusy s) ∨
    (s.phase = .idle ∧ a = 1 ∧ memWrite a v s = writeCtrl v s) ∨
    (s.phase = .idle ∧ a = 2 ∧ decodeCmd v s.diagEn = .illegal ∧ memWrite a v s = raiseErrCmd s) ∨
    (s.phase = .idle ∧ a = 2 ∧ ∃ o, decodeCmd v s.diagEn = .op o ∧ memWrite a v s = accept o s) ∨
    (s.phase = .idle ∧ a = 4 ∧ memWrite a v s = writeCtrLo v s) ∨
    (s.phase = .idle ∧ a = 5 ∧ memWrite a v s = writeCtrHi v s) ∨
    (s.phase = .idle ∧ (8 ≤ a.toNat ∧ a.toNat ≤ 15) ∧ ∃ i, memWrite a v s = writeKey i v s) ∨
    (s.phase = .idle ∧ s.diagEn = true ∧ ∃ i, memWrite a v s = { s with digest := setWord s.digest i v }) ∨
    (s.phase = .idle ∧ s.diagEn = true ∧ ∃ q, memWrite a v s = { s with binned := q }) := by
  cases hr : regAt a with
  | none => left; simp [memWrite, hr]
  | some r =>
    have ha := regIndex_of_regAt a r hr
    subst ha
    rw [memWrite_regIndex]
    have key (i : BitVec 3) : 8 ≤ (regIndex (.key i)).toNat ∧ (regIndex (.key i)).toNat ≤ 15 := by revert i; decide
    have dig (i : BitVec 3) : 8 ≤ (regIndex (.digest i)).toNat ∧ (regIndex (.digest i)).toNat ≤ 0x19 := by
      revert i; decide
    cases hp : s.phase with
    | busy =>
      cases r with
      | id => exact .inl rfl
      | offset => exact .inl rfl
      | codeLo => exact .inl rfl
      | codeHi => exact .inl rfl
      | status => exact .inr (.inl ⟨rfl, rfl⟩)
      | ctrl => exact .inr (.inr (.inl ⟨rfl, by decide, whileIdle_of_busy _ _ hp⟩))
      | cmd => exact .inr (.inr (.inl ⟨rfl, by decide, whileIdle_of_busy _ _ hp⟩))
      | ctrLo => exact .inr (.inr (.inl ⟨rfl, by decide, whileIdle_of_busy _ _ hp⟩))
      | ctrHi => exact .inr (.inr (.inl ⟨rfl, by decide, whileIdle_of_busy _ _ hp⟩))
      | binnedLo => exact .inr (.inr (.inl ⟨rfl, by decide, whileIdle_of_busy _ _ hp⟩))
      | binnedHi => exact .inr (.inr (.inl ⟨rfl, by decide, whileIdle_of_busy _ _ hp⟩))
      | key i =>
        have := key i
        exact .inr (.inr (.inl ⟨rfl, by omega, whileIdle_of_busy _ _ hp⟩))
      | digest i =>
        have := dig i
        exact .inr (.inr (.inl ⟨rfl, by omega, whileIdle_of_busy _ _ hp⟩))
    | idle =>
      cases r with
      | id => exact .inl rfl
      | offset => exact .inl rfl
      | codeLo => exact .inl rfl
      | codeHi => exact .inl rfl
      | status => exact .inr (.inl ⟨rfl, rfl⟩)
      | ctrl => exact .inr (.inr (.inr (.inl ⟨rfl, rfl, whileIdle_of_idle _ _ hp⟩)))
      | cmd =>
        have h : writeReg .cmd v s = dispatchCmd v s := whileIdle_of_idle _ _ hp
        rw [h]
        unfold dispatchCmd
        cases hd : decodeCmd v s.diagEn with
        | illegal => exact .inr (.inr (.inr (.inr (.inl ⟨rfl, rfl, rfl, rfl⟩))))
        | nop => exact .inl rfl
        | op o => exact .inr (.inr (.inr (.inr (.inr (.inl ⟨rfl, rfl, o, rfl, rfl⟩)))))
      | ctrLo => exact .inr (.inr (.inr (.inr (.inr (.inr (.inl ⟨rfl, rfl, whileIdle_of_idle _ _ hp⟩))))))
      | ctrHi => exact .inr (.inr (.inr (.inr (.inr (.inr (.inr (.inl ⟨rfl, rfl, whileIdle_of_idle _ _ hp⟩)))))))
      | key i =>
        exact .inr (.inr (.inr (.inr (.inr (.inr (.inr (.inr (.inl ⟨rfl, key i, i, whileIdle_of_idle _ _ hp⟩))))))))
      | digest i =>
        have h : writeReg (.digest i) v s = writeDigest i v s := whileIdle_of_idle _ _ hp
        rw [h]
        unfold writeDigest
        split
        · next hd => exact .inr (.inr (.inr (.inr (.inr (.inr (.inr (.inr (.inr (.inl ⟨rfl, hd, i, by rw [← hp]⟩)))))))))
        · exact .inl rfl
      | binnedLo =>
        have h : writeReg .binnedLo v s = writeBinnedLo v s := whileIdle_of_idle _ _ hp
        rw [h]
        unfold writeBinnedLo
        split
        · next hd => exact .inr (.inr (.inr (.inr (.inr (.inr (.inr (.inr (.inr (.inr ⟨rfl, hd, _, by rw [← hp]⟩)))))))))
        · exact .inl rfl
      | binnedHi =>
        have h : writeReg .binnedHi v s = writeBinnedHi v s := whileIdle_of_idle _ _ hp
        rw [h]
        unfold writeBinnedHi
        split
        · next hd => exact .inr (.inr (.inr (.inr (.inr (.inr (.inr (.inr (.inr (.inr ⟨rfl, hd, _, by rw [← hp]⟩)))))))))
        · exact .inl rfl

/-- CTRL after a write of it while IDLE. -/
@[simp] theorem writeCtrl_ctrl (v : Word) (s : State) : (writeCtrl v s).ctrl = v.extractLsb' 0 2 := by
  unfold writeCtrl; split <;> rfl

/-- A write of CTRL while IDLE, as one update (42_commands R153). -/
theorem writeCtrl_eq (v : Word) (s : State) :
    writeCtrl v s =
      if s.diagEn = true ∧ v.getLsbD 0 = false
      then { s with ctrl := v.extractLsb' 0 2, digest := 0, offset := 0, binned := 0 }
      else { s with ctrl := v.extractLsb' 0 2 } := by
  unfold writeCtrl clearIntermediates
  cases s.diagEn <;> cases v.getLsbD 0 <;> rfl

/-- The new CTRL.DIAG_EN is bit 0 of the word written, the new CTRL.IRQ_EN bit 1. -/
theorem getLsbD_ctrl_of_word (v : Word) (k : Nat) (h : k < 2) : (v.extractLsb' 0 2).getLsbD k = v.getLsbD k := by
  simp [h]

/-! ### Commands -/

/-- A command issued is the write of its word to CMD. -/
theorem exec_of_encode_cmd (i : Instr) (w : Word) (s : State) (h : encode i = .cmd32 w) :
    exec i s = .next (noAnswer (memWrite 2 w s)) := by
  have e (x : Word) : memWrite 2 x s = writeCmd x s := memWrite_regIndex .cmd x s
  cases i <;> simp only [encode, BusWord.cmd32.injEq, reduceCtorEq] at h <;> subst h <;> rw [e] <;> rfl

/-- A command while IDLE, in a mode that admits it (42_commands R132). -/
theorem exec_op_of_idle (o : Op) (s : State) (h : s.phase = .idle)
    (hm : s.diagEn = true ∨ o = .gen ∨ o = .zeroize) : exec o.instr s = .next (noAnswer (accept o s)) := by
  have e : exec o.instr s = .next (noAnswer (writeCmd o.word s)) := by cases o <;> rfl
  rw [e, writeCmd, whileIdle_of_idle _ _ h, dispatchCmd, decodeCmd_word, if_pos hm]

/-- A stage command while IDLE in normal mode (42_commands R150). -/
theorem exec_op_of_idle_illegal (o : Op) (s : State) (h : s.phase = .idle)
    (hm : ¬(s.diagEn = true ∨ o = .gen ∨ o = .zeroize)) : exec o.instr s = .next (noAnswer (raiseErrCmd s)) := by
  have e : exec o.instr s = .next (noAnswer (writeCmd o.word s)) := by cases o <;> rfl
  rw [e, writeCmd, whileIdle_of_idle _ _ h, dispatchCmd, decodeCmd_word, if_neg hm]

/-- A command while BUSY (42_commands R152). -/
theorem exec_op_of_busy (o : Op) (s : State) (h : s.phase = .busy) :
    exec o.instr s = .next (noAnswer (raiseErrBusy s)) := by
  have e : exec o.instr s = .next (noAnswer (writeCmd o.word s)) := by cases o <;> rfl
  rw [e, writeCmd, whileIdle_of_busy _ _ h]

/-- Every instruction answers a next state, and leaves the pin, the history, the inputs and the free values alone. -/
theorem exec_next (i : Instr) (s : State) :
    ∃ t, exec i s = .next t ∧ t.rstN = s.rstN ∧ t.everReset = s.everReset ∧ t.inbox = s.inbox ∧
      t.freeCount = s.freeCount := by
  have wr (a : WordIndex) (v : Word) : (memWrite a v s).rstN = s.rstN ∧ (memWrite a v s).everReset = s.everReset ∧
      (memWrite a v s).inbox = s.inbox ∧ (memWrite a v s).freeCount = s.freeCount := by
    rcases memWrite_cases a v s with e | ⟨_, e⟩ | ⟨_, _, e⟩ | ⟨_, _, e⟩ | ⟨_, _, _, e⟩ | ⟨_, _, _, _, e⟩ | ⟨_, _, e⟩ |
      ⟨_, _, e⟩ | ⟨_, _, _, e⟩ | ⟨_, _, _, e⟩ | ⟨_, _, _, e⟩ <;> rw [e]
    all_goals first | exact ⟨rfl, rfl, rfl, rfl⟩ | (rw [writeCtrl_eq]; split <;> exact ⟨rfl, rfl, rfl, rfl⟩)
  have cmd (i : Instr) (w : Word) (h : encode i = .cmd32 w) : ∃ t, exec i s = .next t ∧ t.rstN = s.rstN ∧
      t.everReset = s.everReset ∧ t.inbox = s.inbox ∧ t.freeCount = s.freeCount :=
    ⟨_, exec_of_encode_cmd i w s h, wr 2 w⟩
  cases i with
  | nop => exact cmd _ _ rfl
  | gen => exact cmd _ _ rfl
  | hash => exact cmd _ _ rfl
  | trunc => exact cmd _ _ rfl
  | reduce => exact cmd _ _ rfl
  | zeroize => exact cmd _ _ rfl
  | rd32 addr => exact ⟨_, rfl, rfl, rfl, rfl, rfl⟩
  | wr32 addr data => exact ⟨_, rfl, wr addr data⟩

/-! ### Completion -/

/-- The data registers a command does not touch, and every field that is no data register. -/
theorem effect_frame (o : Op) (s : State) :
    (effect o s).ctrl = s.ctrl ∧ (effect o s).done = s.done ∧ (effect o s).errCmd = s.errCmd ∧
    (effect o s).errBusy = s.errBusy ∧ (effect o s).phase = s.phase ∧ (effect o s).pendOp = s.pendOp ∧
    (effect o s).rdata = s.rdata ∧ (effect o s).rstN = s.rstN ∧ (effect o s).everReset = s.everReset ∧
    (effect o s).inbox = s.inbox ∧ (effect o s).freeCount = s.freeCount := by
  cases o <;> simp only [effect, completeGen] <;> first | exact ⟨rfl, rfl, rfl, rfl, rfl, rfl, rfl, rfl, rfl, rfl, rfl⟩ |
    (split <;> exact ⟨rfl, rfl, rfl, rfl, rfl, rfl, rfl, rfl, rfl, rfl, rfl⟩)

/-- KEY and COUNTER change by ZEROIZE alone (42_commands R134 to R138). -/
theorem effect_operands (o : Op) (s : State) :
    (effect o s).key = (if o = .zeroize then 0 else s.key) ∧
    (effect o s).counter = (if o = .zeroize then 0 else s.counter) := by
  cases o <;> simp only [effect, completeGen] <;> first | exact ⟨rfl, rfl⟩ | (split <;> exact ⟨rfl, rfl⟩)

/-- GEN as one update (42_commands R134). -/
theorem completeGen_eq (s : State) :
    completeGen s = { s with
      code := reduce (truncate (kh s.key s.counter)).2
      digest := if s.diagEn then kh s.key s.counter else s.digest
      offset := if s.diagEn then (truncate (kh s.key s.counter)).1 else s.offset
      binned := if s.diagEn then (truncate (kh s.key s.counter)).2 else s.binned } := by
  unfold completeGen
  cases s.diagEn <;> rfl

/-- CODE after a completion is below 10^11 if it was before (41_truncate_reduce R118). -/
theorem effect_code_lt (o : Op) (s : State) (h : s.code.toNat < 10 ^ 11) : (effect o s).code.toNat < 10 ^ 11 := by
  cases o with
  | gen => simp only [effect, completeGen_eq]; exact reduce_lt _
  | hash => exact h
  | trunc => exact h
  | reduce => exact reduce_lt _
  | zeroize => exact (by decide : (0 : Quad).toNat < 10 ^ 11)

/-- OFFSET after a completion is below 28 if it was before (10_state R31). -/
theorem effect_offset_lt (o : Op) (s : State) (h : s.offset.toNat < 28) : (effect o s).offset.toNat < 28 := by
  cases o with
  | gen =>
    simp only [effect, completeGen_eq]
    split
    · exact truncOffset_lt _
    · exact h
  | hash => exact h
  | trunc => exact truncOffset_lt _
  | reduce => exact h
  | zeroize => exact (by decide : (0 : BitVec 5).toNat < 28)

/-- The engine's turn while BUSY. -/
theorem engineTurn_of_busy (s : State) (h : s.phase = .busy) : engineTurn s = finish (effect s.pendOp s) := by
  simp [engineTurn, State.busy, h, complete]

/-- The engine's turn while IDLE: completion is not enabled (42_commands R140). -/
theorem engineTurn_of_idle (s : State) (h : s.phase = .idle) : engineTurn s = s := by
  simp [engineTurn, State.busy, h]

end Sys2Proof.Machine
end

