-- ==== Sys2Proof/Laws/PerInstr.lean ====
section
/-! SUPPORT. Statements about every instruction, one lemma per constructor. -/

namespace Sys2Proof.Laws.RoundTrip

/-- Decoding the word of a well-formed instruction gives it back (30_encoding R71, R77). -/
def Statement (i : Instr) : Prop := i.wf = true → decode (encode i) = .ok i

theorem nop : Statement .nop := fun _ => rfl
theorem gen : Statement .gen := fun _ => rfl
theorem hash : Statement .hash := fun _ => rfl
theorem trunc : Statement .trunc := fun _ => rfl
theorem reduce : Statement .reduce := fun _ => rfl
theorem zeroize : Statement .zeroize := fun _ => rfl

theorem rd32 (addr : WordIndex) : Statement (.rd32 addr) := fun _ => by
  simp only [encode, decode, busInstr_busBits, if_false, Bool.false_eq_true]

theorem wr32 (addr : WordIndex) (data : Word) : Statement (.wr32 addr data) := fun _ => by
  simp only [encode, decode, busInstr_busBits, if_true]

end Sys2Proof.Laws.RoundTrip
end

