-- ==== Sys2Proof/Laws/Step.lean ====
section
/-! SUPPORT. What a step can do. -/

namespace Sys2Proof.Machine

/-- A step of a running block takes the first input. -/
theorem step_cons (s : State) (e : Input) (rest : List Input) (hl : Live s) (h : s.inbox = e :: rest) :
    step s = running e { s with inbox := rest } := by
  simp [step, stepOn, h, takeInput, hl.1, hl.2]

/-- A step of a running block with nothing listed: the engine's turn. -/
theorem step_nil (s : State) (hl : Live s) (h : s.inbox = []) : step s = .next (engineTurn (noAnswer s)) := by
  simp [step, stepOn, h, quiet, hl.1, hl.2]

/-- A transaction word is its transaction. -/
theorem exec_busInstr (w : BitVec 39) (s : State) :
    exec (busInstr w) s =
      if w.getLsbD 38 then .next (noAnswer (memWrite (w.extractLsb' 32 6) (w.extractLsb' 0 32) s))
      else .next (answer (memRead (w.extractLsb' 32 6) s) s) := by
  unfold busInstr
  split <;> rfl

/-- A command word at the port is a write to CMD, whether or not it is a command's (42_commands R131). -/
theorem present_cmd32 (w : Word) (s : State) : present (.cmd32 w) s = .next (noAnswer (memWrite 2 w s)) := by
  cases hd : decode (.cmd32 w) with
  | ok i =>
    have h : present (.cmd32 w) s = exec i s := by simp only [present, hd]
    rw [h, exec_of_encode_cmd i w s (encode_of_decode_cmd32 w i hd)]
  | error _ =>
    have h : present (.cmd32 w) s = exec (.wr32 (regIndex .cmd) w) s := by simp only [present, hd]
    rw [h]; rfl

/-- What a word at the port does: it writes a register or answers a read. -/
theorem present_eq (b : BusWord) (s : State) :
    present b s =
      match writeOf (.port b) with
      | some (a, v) => .next (noAnswer (memWrite a v s))
      | none => .next (answer (memRead (match b with | .cmd32 _ => 0 | .bus39 w => w.extractLsb' 32 6) s) s) := by
  cases b with
  | cmd32 w => exact present_cmd32 w s
  | bus39 w =>
    simp only [present, exec_busInstr, writeOf]
    split <;> rfl

/-- What a request does: it is stopped, or it is its transaction. -/
theorem request_next (r : HostRequest) (k : BusWord → Result) (t : State) (h : request r k = .next t) :
    r.wf = true ∧ k (encode (requestInstr r)) = .next t := by
  unfold request at h
  cases h1 : r.masterOk <;> simp only [h1, Bool.not_false, Bool.not_true, if_true, if_false, reduceCtorEq, Bool.false_eq_true] at h
  cases h2 : r.widthOk <;> simp only [h2, Bool.not_false, Bool.not_true, if_true, if_false, reduceCtorEq, Bool.false_eq_true] at h
  cases h3 : r.inWindow <;> simp only [h3, Bool.not_false, Bool.not_true, if_true, if_false, reduceCtorEq, Bool.false_eq_true] at h
  cases h4 : r.aligned <;> simp only [h4, Bool.not_false, Bool.not_true, if_true, if_false, reduceCtorEq, Bool.false_eq_true] at h
  exact ⟨by simp [HostRequest.wf, h1, h2, h3, h4], h⟩

theorem request_of_wf (r : HostRequest) (k : BusWord → Result) (h : r.wf = true) :
    request r k = k (encode (requestInstr r)) := by
  simp only [HostRequest.wf, Bool.and_eq_true] at h
  simp [request, h.1.1.1, h.1.1.2, h.1.2, h.2]

/-- A well-formed request at the port. -/
theorem present_request (r : HostRequest) (s : State) :
    present (encode (requestInstr r)) s =
      if r.write then .next (noAnswer (memWrite (BitVec.ofNat 6 (r.off / 4)) r.data s))
      else .next (answer (memRead (BitVec.ofNat 6 (r.off / 4)) s) s) := by
  unfold requestInstr
  split
  · simp only [encode, present, busInstr_busBits, if_true]; rfl
  · simp only [encode, present, busInstr_busBits, if_false, Bool.false_eq_true]; rfl

/-- Everything a step of a running block can do. -/
theorem step_cases (s t : State) (hl : Live s) (h : step s = .next t) :
    (∃ e rest a v, s.inbox = e :: rest ∧ writeOf e = some (a, v) ∧
      t = noAnswer (memWrite a v { s with inbox := rest })) ∨
    (∃ e rest a, s.inbox = e :: rest ∧ writeOf e = none ∧ e ≠ .rst false ∧
      t = answer (memRead a { s with inbox := rest }) { s with inbox := rest }) ∨
    (∃ rest, s.inbox = .idle :: rest ∧ t = noAnswer { s with inbox := rest }) ∨
    (∃ rest, s.inbox = .engine :: rest ∧ t = engineTurn { s with inbox := rest }) ∨
    (∃ rest, s.inbox = .rst true :: rest ∧ t = { s with inbox := rest }) ∨
    (∃ rest, s.inbox = .rst false :: rest ∧ t = takeReset { s with inbox := rest, rstN := false }) ∨
    (s.inbox = [] ∧ t = engineTurn (noAnswer s)) := by
  cases hi : s.inbox with
  | nil =>
    rw [step_nil s hl hi] at h
    simp only [Host.Outcome.next.injEq] at h
    simp [h]
  | cons e rest =>
    rw [step_cons s e rest hl hi] at h
    cases e with
    | port b =>
      simp only [running, present_eq] at h
      cases hw : writeOf (.port b) with
      | some p =>
        obtain ⟨a, v⟩ := p
        simp only [hw, Host.Outcome.next.injEq] at h
        exact .inl ⟨_, _, a, v, rfl, hw, h.symm⟩
      | none =>
        simp only [hw, Host.Outcome.next.injEq] at h
        exact .inr (.inl ⟨_, _, _, rfl, hw, by simp, h.symm⟩)
    | request r =>
      simp only [running] at h
      obtain ⟨hwf, h⟩ := request_next _ _ _ h
      rw [present_request] at h
      cases hw : r.write with
      | true =>
        simp only [hw, if_true, Host.Outcome.next.injEq] at h
        exact .inl ⟨_, _, _, _, rfl, by simp [writeOf, hwf, hw], h.symm⟩
      | false =>
        simp only [hw, if_false, Bool.false_eq_true, Host.Outcome.next.injEq] at h
        exact .inr (.inl ⟨_, _, _, rfl, by simp [writeOf, hw], by simp, h.symm⟩)
    | idle =>
      simp only [running, Host.Outcome.next.injEq] at h
      exact .inr (.inr (.inl ⟨rest, rfl, h.symm⟩))
    | engine =>
      simp only [running, Host.Outcome.next.injEq] at h
      exact .inr (.inr (.inr (.inl ⟨rest, rfl, h.symm⟩)))
    | rst level =>
      simp only [running, pinRst, Host.Outcome.next.injEq] at h
      cases level with
      | true =>
        simp only [if_true] at h
        exact .inr (.inr (.inr (.inr (.inl ⟨rest, rfl, by rw [← h, ← hl.1]⟩))))
      | false =>
        simp only [if_false, Bool.false_eq_true] at h
        exact .inr (.inr (.inr (.inr (.inr (.inl ⟨rest, rfl, h.symm⟩)))))

/-- What a step can do while the block is held in reset, or before its first reset: it takes reset, or the pin alone
moves. -/
theorem step_not_live (s t : State) (hl : ¬Live s) (h : step s = .next t) :
    (∃ u v, t = answer v (takeReset u)) ∨ (∃ u, t = takeReset u) ∨
    (∃ rest, t = { s with inbox := rest, rstN := true }) := by
  have inReq (r : HostRequest) (u : State) (h : request r (fun b => .next (presentInReset b u)) = .next t) :
      (∃ u v, t = answer v (takeReset u)) ∨ (∃ u, t = takeReset u) := by
    have h := (request_next _ _ _ h).2
    simp only [Host.Outcome.next.injEq] at h
    unfold presentInReset at h
    split at h
    · exact .inl ⟨u, 0, h.symm⟩
    · exact .inr ⟨u, h.symm⟩
  have pin (level : Bool) (rest : List Input) (h : (.next (pinRst level { s with inbox := rest }) : Result) = .next t) :
      (∃ u v, t = answer v (takeReset u)) ∨ (∃ u, t = takeReset u) ∨ (∃ rest, t = { s with inbox := rest, rstN := true }) := by
    simp only [pinRst, Host.Outcome.next.injEq] at h
    cases level with
    | true => exact .inr (.inr ⟨rest, h.symm⟩)
    | false => exact .inr (.inl ⟨_, h.symm⟩)
  unfold step stepOn at h
  cases hr : s.rstN with
  | false =>
    cases hi : s.inbox with
    | nil =>
      simp only [hi, quiet, hr, Bool.not_false, if_true, Host.Outcome.next.injEq] at h
      exact .inr (.inl ⟨_, h.symm⟩)
    | cons e rest =>
      simp only [hi, takeInput, hr, Bool.not_false, if_true] at h
      cases e with
      | port b =>
        simp only [inReset, presentInReset, Host.Outcome.next.injEq] at h
        split at h
        · exact .inl ⟨_, _, h.symm⟩
        · exact .inr (.inl ⟨_, h.symm⟩)
      | request r => exact (inReq r _ h).imp id .inl
      | idle => simp only [inReset, Host.Outcome.next.injEq] at h; exact .inr (.inl ⟨_, h.symm⟩)
      | engine => simp only [inReset, Host.Outcome.next.injEq] at h; exact .inr (.inl ⟨_, h.symm⟩)
      | rst level => exact pin level rest (hr ▸ h)
  | true =>
    have he : s.everReset = false := by
      cases he : s.everReset with
      | false => rfl
      | true => exact absurd ⟨hr, he⟩ hl
    cases hi : s.inbox with
    | nil => simp [hi, quiet, hr, he] at h
    | cons e rest =>
      simp only [hi, takeInput, hr, he, Bool.not_true, Bool.not_false, if_true, if_false, Bool.false_eq_true] at h
      cases e with
      | rst level => exact pin level rest (hr ▸ he ▸ h)
      | port _ => simp [beforeReset] at h
      | request _ => simp [beforeReset] at h
      | idle => simp [beforeReset] at h
      | engine => simp [beforeReset] at h

/-- One more step of a run. -/
theorem run_succ (k : Nat) (s t : State) (h : step s = .next t) : core.run (k + 1) s = core.run k t := by
  have e (M : Host.Core) (s t : M.State) (h : M.step s = .next t) : M.run (k + 1) s = M.run k t := by
    simp only [Host.Core.run, h]
  exact e core s t h

theorem run_zero (s : State) : core.run 0 s = .next s := rfl

end Sys2Proof.Machine
end

