-- ==== Sys2Proof/Laws/Run.lean ====
section
/-! SUPPORT. Running a list of transactions, and the wide register of 32 bytes. -/

namespace Sys2Proof.Machine

/-- Presenting the word of an instruction executes it. -/
theorem present_encode (i : Instr) (s : State) : present (encode i) s = exec i s := by
  cases i <;> first
    | rfl
    | simp only [encode, present, busInstr_busBits, if_true, if_false, Bool.false_eq_true]

/-- No write reads or changes the inputs to come. -/
theorem memWrite_inbox (a : WordIndex) (v : Word) (s : State) (l : List Input) :
    memWrite a v { s with inbox := l } = { memWrite a v s with inbox := l } := by
  unfold memWrite
  cases regAt a with
  | none => rfl
  | some r =>
    have hd : State.diagEn { s with inbox := l } = s.diagEn := rfl
    rcases (by cases s.phase <;> simp : s.phase = .idle ∨ s.phase = .busy) with hp | hp
    · have hp' : State.phase { s with inbox := l } = .idle := hp
      cases r <;> simp only [writeReg, writeCmd, whileIdle_of_idle _ _ hp, whileIdle_of_idle _ _ hp', writeCtrl_eq,
        writeDigest, writeBinnedLo, writeBinnedHi, dispatchCmd, hd]
      case cmd => cases decodeCmd v s.diagEn <;> rfl
      case ctrl => split <;> rfl
      case digest => split <;> rfl
      case binnedLo => split <;> rfl
      case binnedHi => split <;> rfl
      all_goals rfl
    · have hp' : State.phase { s with inbox := l } = .busy := hp
      cases r <;> simp only [writeReg, writeCmd, whileIdle_of_busy _ _ hp, whileIdle_of_busy _ _ hp'] <;> rfl

/-- No instruction reads or changes the inputs to come. -/
theorem exec_inbox (i : Instr) (s t : State) (l : List Input) (h : exec i s = .next t) :
    exec i { s with inbox := l } = .next { t with inbox := l } := by
  have cmd (w : Word) (he : encode i = .cmd32 w) : exec i { s with inbox := l } = .next { t with inbox := l } := by
    rw [exec_of_encode_cmd i w _ he] at h ⊢
    rw [memWrite_inbox]
    simp only [Host.Outcome.next.injEq] at h
    subst h
    rfl
  cases i with
  | rd32 a =>
    have h : (.next (answer (memRead a s) s) : Result) = .next t := h
    simp only [Host.Outcome.next.injEq] at h
    subst h
    show (.next (answer (memRead a { s with inbox := l }) { s with inbox := l }) : Result) = _
    rw [memRead_congr a s { s with inbox := l }] <;> rfl
  | wr32 a v =>
    have h : (.next (noAnswer (memWrite a v s)) : Result) = .next t := h
    simp only [Host.Outcome.next.injEq] at h
    subst h
    show (.next (noAnswer (memWrite a v { s with inbox := l })) : Result) = _
    rw [memWrite_inbox]
    rfl
  | _ => exact cmd _ rfl

/-- The state after an instruction, which never stops (`exec_next`). -/
def after (s : State) (i : Instr) : State :=
  match exec i s with
  | .next t => t
  | .fault _ => s
  | .refused _ => s

theorem after_eq (s t : State) (i : Instr) (h : exec i s = .next t) : after s i = t := by simp [after, h]

/-- A run over a presented program is the program's instructions one after another. -/
theorem run_presented (p : List Instr) (s : State) (tail : List Input) (n : Nat) (hl : Live s) :
    core.run (p.length + n) { s with inbox := presented p ++ tail } =
      core.run n { p.foldl after s with inbox := tail } := by
  induction p generalizing s with
  | nil => simp [presented]
  | cons i p ih =>
    obtain ⟨t, h, h1, h2, -⟩ := exec_next i s
    have st : step { s with inbox := presented (i :: p) ++ tail } = .next { t with inbox := presented p ++ tail } := by
      rw [step_cons { s with inbox := presented (i :: p) ++ tail } (.port (encode i)) (presented p ++ tail) hl rfl]
      simp only [running, present_encode]
      exact exec_inbox i s t _ h
    rw [show (i :: p).length + n = (p.length + n) + 1 by simp; omega, run_succ _ _ _ st, ih t ⟨h1.trans hl.1, h2.trans hl.2⟩,
      List.foldl_cons, after_eq _ _ _ h]

/-- A run of any machine goes on from the state its first steps lead to. -/
theorem run_add_of (M : Host.Core) (m n : Nat) (s t : M.State) (h : M.run m s = .next t) : M.run (m + n) s = M.run n t := by
  induction m generalizing s with
  | zero =>
    cases h
    rw [Nat.zero_add]
  | succ m ih =>
    rw [Nat.succ_add]
    simp only [Host.Core.run] at h ⊢
    cases hs : M.step s with
    | next u =>
      simp only [hs] at h ⊢
      exact ih u h
    | fault f => simp [hs] at h
    | refused r => simp [hs] at h

/-- A run goes on from the state its first steps lead to. -/
theorem run_add (m n : Nat) (s t : State) (h : core.run m s = .next t) : core.run (m + n) s = core.run n t :=
  run_add_of core m n s t h

/-- An input that is no write, no engine's turn, no reset and no stop changes the read data alone. -/
theorem running_readsOnly (e : Input) (s : State) (hl : Live s) (hw : e.lawful = true ∧ writeOf e = none ∧ e ≠ .engine) :
    Gives (running e s) s := by
  obtain ⟨h1, h2, h3⟩ := hw
  cases e with
  | port b =>
    rw [running, present_eq, h2]
    exact ⟨_, rfl⟩
  | request r =>
    have wf : r.wf = true := h1
    have hr : r.write = false := by simpa [writeOf, wf] using h2
    simp only [running, request_of_wf _ _ wf, present_request, hr, Bool.false_eq_true, if_false]
    exact ⟨_, rfl⟩
  | idle => exact ⟨none, rfl⟩
  | engine => exact absurd rfl h3
  | rst level =>
    cases level with
    | true => exact ⟨s.rdata, by rw [running, pinRst, if_pos rfl, ← hl.1]⟩
    | false => cases h1

/-- A run over such inputs changes the read data alone. -/
theorem run_readsOnly (l rest : List Input) (s : State) (hl : Live s) (h : ReadsOnly l) :
    Gives (core.run l.length { s with inbox := l ++ rest }) { s with inbox := rest } := by
  induction l generalizing s with
  | nil => exact ⟨s.rdata, rfl⟩
  | cons e l ih =>
    obtain ⟨d, hd⟩ := running_readsOnly e { s with inbox := l ++ rest } hl (h e (by simp))
    have st : step { s with inbox := e :: l ++ rest } = .next { s with inbox := l ++ rest, rdata := d } :=
      (step_cons { s with inbox := e :: l ++ rest } e (l ++ rest) hl rfl).trans hd
    obtain ⟨d', hd'⟩ := ih { s with rdata := d } hl fun e' he => h e' (by simp [he])
    exact ⟨d', (run_succ _ _ _ st).trans hd'⟩

/-- WR32 at a register's offset. -/
theorem after_wr (s : State) (r : Reg) (v : Word) : after s (wr r v) = noAnswer (writeReg r v s) := by
  apply after_eq
  show (.next (noAnswer (memWrite (regIndex r) v s)) : Result) = _
  rw [memWrite_regIndex]

/-- A wide register is its eight words. -/
theorem wide_ext (a b : Wide) (h : ∀ i : BitVec 3, wordOf a i = wordOf b i) : a = b := by
  ext n hn
  have hlt : n / 32 < 8 := by omega
  have := congrArg (fun w => w.getLsbD (n % 32)) (h (BitVec.ofNat 3 (n / 32)))
  simp only [wordOf, BitVec.getLsbD_extractLsb', BitVec.toNat_ofNat, Nat.mod_eq_of_lt hlt] at this
  have lt : n % 32 < 32 := by omega
  have e : 32 * (n / 32) + n % 32 = n := by omega
  simpa [lt, e, BitVec.getLsbD_eq_getElem, hn] using this

/-- The words of 32 bytes. -/
theorem wordOf_wideOfBytes (k : Vector Byte 32) (i : BitVec 3) : wordOf (wideOfBytes k) i = packWord k i.toFin := by
  ext n hn
  rw [wordOf, BitVec.getElem_extractLsb']
  change ((packWord k 7 ++ packWord k 6 ++ packWord k 5 ++ packWord k 4 ++ packWord k 3 ++ packWord k 2 ++ packWord k 1 ++
    packWord k 0 : BitVec (32 + 32 + 32 + 32 + 32 + 32 + 32 + 32))).getLsbD _ = _
  simp only [BitVec.getLsbD_append]
  rw [← BitVec.getLsbD_eq_getElem]
  have : ∀ i : BitVec 3, i = 0 ∨ i = 1 ∨ i = 2 ∨ i = 3 ∨ i = 4 ∨ i = 5 ∨ i = 6 ∨ i = 7 := by decide
  rcases this i with rfl | rfl | rfl | rfl | rfl | rfl | rfl | rfl <;> interval_cases n <;> rfl

end Sys2Proof.Machine
end

