-- ==== Sys2Proof/Machine/Assembly.lean ====
section
/-! DEFINITION. The host assembly of 30_encoding R78 and the pseudo-instructions' names of R79, read from text. Blanks and
commas separate, `;` starts a comment, numbers are decimal or hexadecimal with `0x` (log 11). -/

namespace Sys2Proof.Machine

/-- Every register of the map (20_memory R55). -/
def allRegs : List Reg :=
  [.id, .ctrl, .cmd, .status, .ctrLo, .ctrHi, .offset] ++
  (List.range 8).map (fun i => .key (BitVec.ofNat 3 i)) ++
  (List.range 8).map (fun i => .digest (BitVec.ofNat 3 i)) ++
  [.binnedLo, .binnedHi, .codeLo, .codeHi]

/-- The name of a register (20_memory R55). -/
def regName : Reg → List Char
  | .id => "ID".toList
  | .ctrl => "CTRL".toList
  | .cmd => "CMD".toList
  | .status => "STATUS".toList
  | .ctrLo => "CTR_LO".toList
  | .ctrHi => "CTR_HI".toList
  | .offset => "OFFSET".toList
  | .key i => "KEY".toList ++ [Nat.digitChar i.toNat]
  | .digest i => "DIGEST".toList ++ [Nat.digitChar i.toNat]
  | .binnedLo => "BINNED_LO".toList
  | .binnedHi => "BINNED_HI".toList
  | .codeLo => "CODE_LO".toList
  | .codeHi => "CODE_HI".toList

/-- The register of a name. -/
def regNamed (name : List Char) : Option Reg := allRegs.find? fun r => regName r = name

/-- Blanks and commas. -/
def isSeparator (c : Char) : Bool := c = ' ' || c = ',' || c = '\t'

/-- The words of a line: `word` holds the one being read, reversed; a comment ends the line. -/
def tokensFrom (word : List Char) : List Char → List (List Char)
  | [] => if word = [] then [] else [word.reverse]
  | c :: rest =>
    if c = ';' then (if word = [] then [] else [word.reverse])
    else if isSeparator c then (if word = [] then tokensFrom [] rest else word.reverse :: tokensFrom [] rest)
    else tokensFrom (c :: word) rest

/-- The value of a digit, if it is below the base. -/
def digitValue (base : Nat) (c : Char) : Option Nat :=
  let v :=
    if '0' ≤ c ∧ c ≤ '9' then c.toNat - 48
    else if 'a' ≤ c ∧ c ≤ 'f' then c.toNat - 87
    else if 'A' ≤ c ∧ c ≤ 'F' then c.toNat - 55
    else base
  if v < base then some v else none

/-- The digits' number, `acc` being that of the digits before. -/
def digitsFrom (base acc : Nat) : List Char → Option Nat
  | [] => some acc
  | c :: rest =>
    match digitValue base c with
    | some v => digitsFrom base (acc * base + v) rest
    | none => none

/-- A number: hexadecimal with `0x`, else decimal (30_encoding R78). -/
def number : List Char → Option Nat
  | [] => none
  | [c] => digitsFrom 10 0 [c]
  | c :: d :: rest => if c = '0' ∧ d = 'x' ∧ rest ≠ [] then digitsFrom 16 0 rest else digitsFrom 10 0 (c :: d :: rest)

/-- A number that fits in `w` bits. -/
def numberBits (w : Nat) (t : List Char) : Option (BitVec w) :=
  match number t with
  | some n => if n < 2 ^ w then some (BitVec.ofNat w n) else none
  | none => none

/-- Every one of the words as a byte, a number as 30_encoding R78 says. DESIGN CHOICE (log 11): P5 of 95_test_vectors
writes the bytes of `wrkey` as bare hexadecimal, which is not read: `1F` is refused and `10` is ten. -/
def byteList : List (List Char) → Option (List Byte)
  | [] => some []
  | t :: rest =>
    match numberBits 8 t, byteList rest with
    | some b, some bs => some (b :: bs)
    | _, _ => none

/-- Thirty-two bytes. -/
def bytes32 (ts : List (List Char)) : Option (Vector Byte 32) :=
  match byteList ts with
  | some bs => if h : bs.toArray.size = 32 then some ⟨bs.toArray, h⟩ else none
  | none => none

/-- The mnemonic of a command (30_encoding R71), as the pseudo-instruction `cmd` names it. -/
def cmdNamed (t : List Char) : Option Pseudo :=
  if t = "NOP".toList then some .cmdNop
  else if t = "GEN".toList then some (.cmd .gen)
  else if t = "HASH".toList then some (.cmd .hash)
  else if t = "TRUNC".toList then some (.cmd .trunc)
  else if t = "REDUCE".toList then some (.cmd .reduce)
  else if t = "ZEROIZE".toList then some (.cmd .zeroize)
  else none

/-- The transactions of a line's words: one transaction or one pseudo-instruction (30_encoding R78). -/
def assembleTokens (ts : List (List Char)) : Option (List Instr) :=
  match ts with
  | [] => some []
  | m :: args =>
    if m = "rd".toList then
      match args with
      | [r] => (regNamed r).map fun r => [rd r]
      | _ => none
    else if m = "wr".toList then
      match args with
      | [r, v] =>
        match regNamed r, numberBits 32 v with
        | some r, some v => some [wr r v]
        | _, _ => none
      | _ => none
    else if m = "cmd".toList then
      match args with
      | [o] => (cmdNamed o).map Pseudo.expand
      | _ => none
    else if m = "wrctr".toList then
      match args with
      | [c] => (numberBits 64 c).map fun c => (Pseudo.wrctr c).expand
      | _ => none
    else if m = "wrkey".toList then (bytes32 args).map fun b => (Pseudo.wrkey b).expand
    else if m = "wrdigest".toList then (bytes32 args).map fun b => (Pseudo.wrdigest b).expand
    else if args ≠ [] then none
    else if m = "wait".toList then some Pseudo.wait.expand
    else if m = "rdcode".toList then some Pseudo.rdcode.expand
    else if m = "rdbinned".toList then some Pseudo.rdbinned.expand
    else if m = "ack".toList then some Pseudo.ack.expand
    else none

/-- The transactions of one line of host assembly (30_encoding R78). -/
def assembleLine (line : String) : Option (List Instr) := assembleTokens (tokensFrom [] line.toList)

end Sys2Proof.Machine
end

