-- ==== Sys2Proof/Tests/Slice0.lean ====
section
/-! SUPPORT. Tests whose expected results come from the spec (95_test_vectors and the encoding tables of 30_encoding), the
smoke test of WellFormed, and for every statement with hypotheses a witness that meets them. -/

namespace Sys2Proof.Tests

open Sys2Proof.Machine

/-- The state an outcome goes to. -/
def nextOf (r : Result) : Option State :=
  match r with
  | .next t => some t
  | .fault _ => none
  | .refused _ => none

/-- The reset state in diagnostic mode. -/
def diag : State := { State.reset with ctrl := 1 }

/-- A command pending in diagnostic mode, the engine's turn next. -/
def pending (o : Op) : State := { diag with phase := .busy, pendOp := o, inbox := [.engine] }

/-- An idle block with the given inputs to come. -/
def given (l : List Input) : State := { State.reset with inbox := l }

/-- A busy block with the given inputs to come. -/
def busyGiven (o : Op) (l : List Input) : State := { State.reset with phase := .busy, pendOp := o, inbox := l }

/-- A request to the block's window, at a byte offset from its base. -/
def ask (master : Master) (off width : Nat) : HostRequest := ⟨master, Config.blockBase + off, width, true, 5⟩

/-! ### What the port can carry -/

theorem test_wf_accepts_last_register : (ask .host 252 4).wf = true := by
  simp [HostRequest.wf, HostRequest.masterOk, HostRequest.widthOk, HostRequest.inWindow, HostRequest.aligned,
    HostRequest.off, ask]

theorem test_wf_refuses_second_master : (ask .other 8 4).masterOk = false ∧ (ask .other 8 4).wf = false := by
  simp [HostRequest.wf, HostRequest.masterOk, ask]

theorem test_wf_refuses_byte_access : (ask .host 8 1).widthOk = false ∧ (ask .host 8 1).wf = false := by
  simp [HostRequest.wf, HostRequest.widthOk, ask]

theorem test_wf_refuses_outside_window : (ask .host 256 4).inWindow = false ∧ (ask .host 256 4).wf = false := by
  simp [HostRequest.wf, HostRequest.inWindow, ask]

theorem test_wf_refuses_misaligned : (ask .host 254 4).aligned = false ∧ (ask .host 254 4).wf = false := by
  simp [HostRequest.wf, HostRequest.aligned, HostRequest.off, ask]

/-! ### Decoding: words from 30_encoding R71 and from the programs of 95_test_vectors -/

theorem test_decode_nop : decodeTableWord 32 0x00000000 = some .nop := by decide
theorem test_decode_gen : decodeTableWord 32 0x00000001 = some .gen := by decide
theorem test_decode_hash : decodeTableWord 32 0x00000002 = some .hash := by decide
theorem test_decode_trunc : decodeTableWord 32 0x00000003 = some .trunc := by decide
theorem test_decode_reduce : decodeTableWord 32 0x00000004 = some .reduce := by decide
theorem test_decode_zeroize : decodeTableWord 32 0x00000005 = some .zeroize := by decide
theorem test_decode_unassigned_op : decodeBits 32 0x00000006 = .error .unassignedOp := by rfl
theorem test_decode_reserved_bits : decodeBits 32 0x00000011 = .error .reservedBits := by rfl
theorem test_decode_rd_codehi : decodeTableWord 40 0x1B00000000 = some (.rd32 0x1B) := by decide
theorem test_decode_rd_status_39_bits : decodeTableWord 39 0x0300000000 = some (.rd32 3) := by decide
theorem test_decode_wr_digest7 : decodeTableWord 40 0x571B1E1D1C = some (.wr32 0x17 0x1B1E1D1C) := by decide
theorem test_decode_ack : decodeTableWord 40 0x430000000E = some (.wr32 3 0xE) := by decide
theorem test_decode_bit_39 : decodeTableWord 40 0x8000000000 = none := by decide

/-- R71 and P1: the encoder's words. -/
theorem test_encode : encode .zeroize = .cmd32 5 ∧ encode (.wr32 0x19 0xFFFFFFFF) = .bus39 0x59FFFFFFFF := by decide

theorem test_withFetchWord : (nextOf (step (State.reset.withFetchWord 40 0x4100000003))).map (·.ctrl) = some 3 := by decide

/-! ### Stage functions -/

/-- 40_keyed_hash R102: the published digest of the empty message, unkeyed. -/
theorem test_blake3_empty :
    wide (Blake3.compress Blake3.iv (Vector.replicate 16 0) 0 0 0x0B) =
      wideOfBytes #v[0xaf, 0x13, 0x49, 0xb9, 0xf5, 0xf9, 0xa1, 0xa6, 0xa0, 0x40, 0x4d, 0xea, 0x36, 0xdc, 0xc9, 0x49,
        0x9b, 0xcb, 0x25, 0xc9, 0xad, 0xc1, 0x12, 0xb7, 0xcc, 0x9a, 0x93, 0xca, 0xe4, 0x1f, 0x32, 0x62] := by decide +kernel

/-- 40_keyed_hash R102: the published digest of "abc", unkeyed. -/
theorem test_blake3_abc :
    wide (Blake3.compress Blake3.iv #v[0x00636261, 0, 0, 0, 0, 0, 0, 0, 0, 0, 0, 0, 0, 0, 0, 0] 0 3 0x0B) =
      wideOfBytes #v[0x64, 0x37, 0xb3, 0xac, 0x38, 0x46, 0x51, 0x33, 0xff, 0xb6, 0x3b, 0x75, 0x27, 0x3a, 0x8d, 0xb5,
        0x48, 0xc5, 0x58, 0x46, 0x5d, 0x79, 0xdb, 0x03, 0xfd, 0x35, 0x9c, 0x6c, 0xd5, 0xbd, 0x9d, 0x85] := by decide +kernel

/-- V1: DIGEST0..7 as the spec lists them. -/
theorem test_kh_v1 :
    wordsOf (kh 0 0) = #v[0xEBF2ED69, 0xAD8F07DE, 0x0B4AA65F, 0xD30F9B7F, 0x26396E28, 0x10C13ED6, 0xEF6600DF, 0x806577CB] := by
  decide +kernel

/-- V4: key bytes 00..1F, counter 56666666. -/
theorem test_kh_v4 :
    kh 0x1F1E1D1C1B1A191817161514131211100F0E0D0C0B0A09080706050403020100 56666666 =
      wideOfBytes #v[0x09, 0x1c, 0xc3, 0x3b, 0x84, 0x18, 0x92, 0xf2, 0x6b, 0x01, 0x66, 0x3e, 0xc0, 0xe6, 0xa6, 0xf4,
        0x23, 0x32, 0x4e, 0xd8, 0x40, 0xa4, 0xa9, 0xa3, 0x52, 0xc3, 0x6d, 0x62, 0x81, 0x2c, 0x82, 0x2a] := by decide +kernel

/-- V9, offset 27, the source's wrapping case. -/
theorem test_code_v9 : codeOf 0 69 = 57336230171 := by decide +kernel

/-- T7: the offset byte itself is selected and not masked. -/
theorem test_truncate_t7 :
    truncate 0xFB1E1D1C1B1A191817161514131211100F0E0D0C0B0A09080706050403020100 = (27, 0x1B1C1D1EFB000102) := by decide

/-- T8: 28 gives offset 0. -/
theorem test_truncate_t8 :
    truncate 0x1C1E1D1C1B1A191817161514131211100F0E0D0C0B0A09080706050403020100 = (0, 0x0001020304050607) := by decide

/-- T11 and T12: the mask. -/
theorem test_truncate_mask :
    truncate (BitVec.allOnes 256) = (3, 0x7FFFFFFFFFFFFFFF) ∧
    truncate 0x8080808080808080808080808080808080808080808080808080808080808080 = (16, 0x0080808080808080) := by decide

/-- R2, R3, R4, R7. -/
theorem test_reduce :
    reduce 99999999999 = 99999999999 ∧ reduce 100000000000 = 0 ∧ reduce 100000000001 = 1 ∧
    reduce 0xFFFFFFFFFFFFFFFF = 73709551615 := by decide

/-! ### One step of each instruction -/

/-- 42_commands R133: NOP while BUSY. -/
theorem test_nop_busy : (nextOf (exec .nop (pending .gen))).map statusWord = some 0x00000009 := by decide

/-- K11. -/
theorem test_gen_accepted : (nextOf (exec .gen State.reset)).map statusWord = some 0x00000001 := by decide

/-- P1: the golden code in normal mode; the digest is not kept. -/
theorem test_gen_completes :
    (nextOf (step (busyGiven .gen [.engine]))).map (fun t => (t.code, t.digest, statusWord t)) =
      some (47921266960, 0, 2) := by decide +kernel

/-- K7. -/
theorem test_hash_normal_mode : (nextOf (exec .hash State.reset)).map statusWord = some 0x00000004 := by decide

/-- V2: DIGEST7 and the unchanged CODE. -/
theorem test_hash_completes :
    (nextOf (step { pending .hash with counter := 1 })).map (fun t => (wordOf t.digest 7, t.code)) =
      some (0xDEE641F3, 0) := by decide +kernel

/-- P4: offset 27 of the digest B(0x1B) (T2). -/
theorem test_trunc_completes :
    (nextOf (step { pending .trunc with
      digest := 0x1B1E1D1C1B1A191817161514131211100F0E0D0C0B0A09080706050403020100 })).map
      (fun t => (t.offset, t.binned)) = some (27, 0x1B1C1D1E1B000102) := by decide

/-- P4: the reduction of the largest 64-bit value. -/
theorem test_reduce_completes :
    (nextOf (step { pending .reduce with binned := 0xFFFFFFFFFFFFFFFF })).map (fun t => (hi t.code, lo t.code)) =
      some (0x11, 0x296E7FFF) := by decide

/-- K20: CTRL is kept. -/
theorem test_zeroize_completes :
    (nextOf (step { pending .zeroize with key := 7, counter := 7, code := 7 })).map
      (fun t => (t.key, t.counter, t.code, t.ctrl, t.done)) = some (0, 0, 0, 1, true) := by decide

/-- K3: KEY is write-only. -/
theorem test_rd32_key3 : (nextOf (exec (.rd32 11) { State.reset with key := BitVec.allOnes 256 })).map (·.rdata) =
    some (some 0) := by decide

/-- 20_memory R56: STATUS, ERR_BUSY and DONE set. -/
theorem test_rd32_status : (nextOf (exec (.rd32 3) { State.reset with done := true, errBusy := true })).map (·.rdata) =
    some (some 0x0000000A) := by decide

/-- K3: KEY bytes 12..15 are EF BE AD DE. -/
theorem test_wr32_key3 :
    (nextOf (exec (.wr32 11 0xDEADBEEF) State.reset)).map
      (fun t => (byteOf t.key 11, byteOf t.key 12, byteOf t.key 13, byteOf t.key 14, byteOf t.key 15, byteOf t.key 16)) =
      some (0, 0xEF, 0xBE, 0xAD, 0xDE, 0) := by decide

/-- K6: leaving diagnostic mode clears DIGEST. -/
theorem test_wr32_ctrl_leaves_diagnostic_mode :
    (nextOf (exec (.wr32 1 0) { diag with digest := 0x12345678 })).map (fun t => (t.digest, t.ctrl)) = some (0, 0) := by decide

/-! ### The host side -/

/-- H3, H4: just below and at the end of the first window. -/
theorem test_derive_h3_h4 :
    deriveCounter (29999 / 1000) 0 30 = .ok 0 ∧ deriveCounter 30 0 30 = .ok 1 := by decide +kernel

/-- H7, H8, H10, H11. -/
theorem test_derive_h7_h8_h10_h11 :
    deriveCounter 1700000000 0 30 = .ok 56666666 ∧ deriveCounter 18446744073709551615 0 1 = .ok 18446744073709551615 ∧
    deriveCounter (-1) 0 30 = .timeError ∧ deriveCounter 100 0 0 = .intervalError := by decide +kernel

/-- 95_test_vectors, Display. -/
theorem test_dec11 : dec11 1338728569 = "01338728569".toList ∧ dec11 0 = "00000000000".toList := by decide

/-- P2 and P4, lines of host assembly. -/
theorem test_assemble :
    assembleLine "wr CTRL, 0x00000001      ; DIAG_EN = 1" = some [.wr32 1 1] ∧
    assembleLine "rd BINNED_HI" = some [.rd32 0x19] ∧
    assembleLine "cmd TRUNC" = some [.wr32 2 3] ∧
    assembleLine "ack" = some [.wr32 3 0xE] ∧
    assembleLine "cmd FOO" = none := by decide

/-! ### Witnesses -/

theorem witness_DecodeOfEncodeIsTheInstruction : (Instr.wr32 63 0xFFFFFFFF).wf = true := by decide

theorem witness_EncodeOfDecodeIsTheWord : decode (.cmd32 5) = .ok .zeroize := by rfl

/-- An instruction, a word that is none, and a word of the opcode table. -/
theorem witness_StepRunsTheDecodedInstruction :
    (Live (given [.port (.cmd32 1)]) ∧ (given [.port (.cmd32 1)]).inbox = .port (.cmd32 1) :: [] ∧
      decode (.cmd32 1) = .ok .gen) ∧
    (Live (given [.port (.cmd32 0x10)]) ∧ decode (.cmd32 0x10) = .error .reservedBits) ∧
    decodeTableWord 40 0x7FFFFFFFFF = some (.wr32 63 0xFFFFFFFF) := ⟨⟨by decide, rfl, rfl⟩, ⟨by decide, rfl⟩, by decide⟩

/-- The reset state with `rst_n` low. -/
def low (l : List Input) : State := { State.reset with rstN := false, inbox := l }

/-- The pin falls, or is low at a quiet step, a write, a read, a request, an idle cycle and the engine's turn. -/
theorem witness_ResetPinLowResetsEveryRegister :
    NextIsReset (given [.rst false]) ∧
    (low []).rstN = false ∧ (low []).inbox.head? = none ∧
    (∀ e ∈ [Input.port (encode (.wr32 1 3)), .port (.bus39 0x0300000000), .idle, .engine],
      e.lawful = true ∧ e ≠ .rst true) ∧
    (0x0300000000 : BitVec 39).getLsbD 38 = false ∧
    ((Input.request (ask .host 252 4)).lawful = true ∧ Input.request (ask .host 252 4) ≠ .rst true) :=
  ⟨by decide, by decide, by decide, by decide, by decide, test_wf_accepts_last_register, by simp⟩

theorem witness_LaunchWithoutResetIsRefused :
    ∃ s : State, s.everReset = false ∧ s.rstN = true ∧ ∀ level, s.inbox.head? ≠ some (.rst level) :=
  ⟨{ State.reset with everReset := false, inbox := [.port (.cmd32 0)] }, rfl, rfl, by decide⟩

/-- A busy block whose engine's turn comes with nothing listed. -/
def unlisted (o : Op) : State := { diag with phase := .busy, pendOp := o }

/-- Acceptance in both modes, the busy block, and completion in both modes. -/
theorem witness_GenComputesTheCode :
    (State.reset.phase = .idle ∧ State.reset.diagEn = false) ∧ (diag.phase = .idle ∧ diag.diagEn = true) ∧
    (Live (pending .gen) ∧ (pending .gen).phase = .busy ∧ (pending .gen).pendOp = .gen ∧ EngineNext (pending .gen) ∧
      (pending .gen).diagEn = true) ∧
    (Live (busyGiven .gen []) ∧ (busyGiven .gen []).phase = .busy ∧ (busyGiven .gen []).pendOp = .gen ∧
      EngineNext (busyGiven .gen []) ∧ (busyGiven .gen []).diagEn = false) := by decide

theorem witness_HashWritesTheDigest :
    (diag.phase = .idle ∧ diag.diagEn = true) ∧ (State.reset.phase = .idle ∧ State.reset.diagEn = false) ∧
    (∀ s ∈ [pending .hash, unlisted .hash], Live s ∧ s.phase = .busy ∧ s.pendOp = .hash ∧ EngineNext s) := by decide

theorem witness_TruncWritesOffsetAndBinned :
    (diag.phase = .idle ∧ diag.diagEn = true) ∧ (State.reset.phase = .idle ∧ State.reset.diagEn = false) ∧
    (∀ s ∈ [pending .trunc, unlisted .trunc], Live s ∧ s.phase = .busy ∧ s.pendOp = .trunc ∧ EngineNext s) := by decide

theorem witness_ReduceWritesTheCode :
    (diag.phase = .idle ∧ diag.diagEn = true) ∧ (State.reset.phase = .idle ∧ State.reset.diagEn = false) ∧
    (∀ s ∈ [pending .reduce, unlisted .reduce], Live s ∧ s.phase = .busy ∧ s.pendOp = .reduce ∧ EngineNext s) := by decide

theorem witness_ZeroizeClearsTheDataRegisters :
    State.reset.phase = .idle ∧
    (∀ s ∈ [pending .zeroize, unlisted .zeroize], Live s ∧ s.phase = .busy ∧ s.pendOp = .zeroize ∧ EngineNext s) := by
  decide

theorem witness_WriteToCmdIsTheCommand : encode .nop = .cmd32 0 ∧ encode .zeroize = .cmd32 5 := by decide

/-- RSV of 1; OP 6 and 15; a stage command in normal mode. -/
theorem witness_IllegalWordSetsErrCmdOnly :
    State.reset.phase = .idle ∧ State.reset.diagEn = false ∧
    (0x10 : Word).toNat / 16 ≠ 0 ∧ 6 ≤ (0x6 : Word).toNat % 16 ∧ 6 ≤ (0xF : Word).toNat % 16 ∧
    (0x2 : Word).toNat % 16 = 2 ∧ (0x4 : Word).toNat % 16 = 4 := by decide

theorem witness_StagesEqualGen :
    (Live diag ∧ diag.phase = .idle ∧ diag.diagEn = true) ∧
    (Live State.reset ∧ State.reset.phase = .idle ∧ State.reset.diagEn = false) := by decide

/-- Leaving diagnostic mode, and staying in it. -/
theorem witness_WriteCtrlStoresTwoBits :
    State.reset.phase = .idle ∧ (diag.phase = .idle ∧ diag.diagEn = true ∧ (0x2 : Word).getLsbD 0 = false) ∧
    (0x1 : Word).getLsbD 0 = true := by decide

/-- Also of the statements about KEY and BINNED. -/
theorem witness_WriteCounterSetsOneHalf : State.reset.phase = .idle := by decide

theorem witness_WriteKeySetsOneWord : State.reset.phase = .idle := by decide

theorem witness_WriteBinnedInDiagnosticModeOnly :
    (State.reset.phase = .idle ∧ State.reset.diagEn = false) ∧ (diag.phase = .idle ∧ diag.diagEn = true) := by decide

theorem witness_WriteDigestInDiagnosticModeOnly :
    (State.reset.phase = .idle ∧ State.reset.diagEn = false) ∧ (diag.phase = .idle ∧ diag.diagEn = true) := by decide

/-- The offsets at both ends of the reserved range. -/
theorem witness_IgnoredWritesRaiseNothing :
    0x1C ≤ (0x1C : WordIndex).toNat ∧ 0x1C ≤ (0x3F : WordIndex).toNat ∧ ¬ 0x1C ≤ (0x1B : WordIndex).toNat := by decide

/-- The offsets at both ends of KEY0 .. BINNED_HI fall in the first case; their neighbours and STATUS do not. -/
theorem witness_WritesWhileBusySetErrBusyOnly :
    (pending .gen).phase = .busy ∧
    (∀ a ∈ [(0x01 : WordIndex), 0x08, 0x19], a = 0x01 ∨ a = 0x02 ∨ a = 0x04 ∨ a = 0x05 ∨ (8 ≤ a.toNat ∧ a.toNat ≤ 0x19)) ∧
    (∀ a ∈ [(0x00 : WordIndex), 0x03, 0x07, 0x1A],
      ¬(a = 0x01 ∨ a = 0x02 ∨ a = 0x04 ∨ a = 0x05 ∨ (8 ≤ a.toNat ∧ a.toNat ≤ 0x19))) := by decide

theorem witness_ReadDataIsValidAfterAReadOnly :
    (∃ t, exec (.rd32 63) State.reset = .next t) ∧ (∃ t, exec (.wr32 63 5) State.reset = .next t) ∧
    (∃ t, exec .nop State.reset = .next t) := ⟨⟨_, rfl⟩, ⟨_, rfl⟩, ⟨_, rfl⟩⟩

/-- A read, an idle cycle, the engine's turn and nothing listed. -/
theorem witness_IdleBlockDoesNothingWithoutAWrite :
    ∀ l ∈ [[Input.port (encode (.rd32 3))], [.idle], [.engine], []],
      Live (given l) ∧ (given l).phase = .idle ∧ nextWrite (given l) = none ∧ ¬NextIsReset (given l) ∧
      ∃ t, step (given l) = .next t := by
  intro l hl
  simp only [List.mem_cons, List.not_mem_nil, or_false] at hl
  rcases hl with rfl | rfl | rfl | rfl <;> exact ⟨by decide, rfl, by decide, by decide, _, rfl⟩

theorem witness_ReadsWhileBusyAreOfBeforeTheCommand :
    ∃ t, Live State.reset ∧ State.reset.phase = .idle ∧ exec (Op.gen).instr State.reset = .next t ∧ t.phase = .busy ∧
      (∀ e ∈ [Input.idle, .port (encode (.rd32 0x1A)), .port (encode (.wr32 8 5)), .port (.cmd32 6), .rst true],
        e.lawful = true ∧ e ≠ .engine) ∧
      (0x02 : WordIndex) ≠ 0x03 ∧ (0x04 : WordIndex) ≠ 0x03 := ⟨_, by decide, rfl, rfl, rfl, by decide, by decide, by decide⟩

/-- A request of each kind; the last offset inside the window and the first outside it. -/
theorem witness_RequestsReachTheirOffset :
    (Live (given [.request (ask .other 0 4)]) ∧ (ask .other 0 4).master = .other) ∧
    ((ask .host 0 2).master = .host ∧ (ask .host 0 2).width ≠ 4) ∧
    ((ask .host 256 4).master = .host ∧ (ask .host 256 4).width = 4 ∧ Config.blockBase + 256 ≤ (ask .host 256 4).addr) ∧
    ((ask .host 255 4).addr = Config.blockBase + 255 ∧ 255 < 256 ∧ 255 % 4 ≠ 0) ∧
    ((ask .host 252 4).addr = Config.blockBase + 252 ∧ 252 < 256 ∧ 252 % 4 = 0) :=
  ⟨⟨by decide, rfl⟩, ⟨rfl, by decide⟩, ⟨rfl, rfl, Nat.le_refl _⟩, ⟨rfl, by decide, by decide⟩, ⟨rfl, by decide, by decide⟩⟩

theorem witness_EveryStepKeepsBlockInv :
    ∃ t, BlockInv (pending .trunc) ∧ step (pending .trunc) = .next t := ⟨_, by decide, rfl⟩

/-- Acceptance, completion and reset. -/
theorem witness_PhaseChangesOnlyByAcceptanceAndCompletion :
    (∃ t, Live (given [.port (.cmd32 1)]) ∧ step (given [.port (.cmd32 1)]) = .next t ∧ t.phase ≠ .idle) ∧
    (∃ t, Live (pending .trunc) ∧ step (pending .trunc) = .next t ∧ t.phase ≠ .busy) ∧
    (∃ t, Live (busyGiven .gen [.rst false]) ∧ step (busyGiven .gen [.rst false]) = .next t ∧ t.phase ≠ .busy) :=
  ⟨⟨_, by decide, rfl, by decide⟩, ⟨_, by decide, rfl, by decide⟩, ⟨_, by decide, rfl, by decide⟩⟩

/-- All flags set, `ack` next. -/
def acked : State :=
  { State.reset with done := true, errCmd := true, errBusy := true, inbox := [.port (encode (.wr32 3 0xE))] }

/-- Each flag cleared by a write of STATUS, and DONE by acceptance. -/
theorem witness_FlagsAreClearedOnlyAsTheSpecSays :
    (∃ t, Live acked ∧ step acked = .next t ∧ acked.errCmd = true ∧ t.errCmd = false ∧ acked.errBusy = true ∧
      t.errBusy = false ∧ acked.done = true ∧ t.done = false) ∧
    (∃ t, step { acked with inbox := [.port (.cmd32 1)] } = .next t ∧ t.done = false) :=
  ⟨⟨_, by decide, rfl, rfl, by decide, rfl, by decide, rfl, by decide⟩, ⟨_, rfl, by decide⟩⟩

theorem witness_FlagsAreSetOnlyAsTheSpecSays :
    (∃ t, Live (given [.port (.cmd32 6)]) ∧ step (given [.port (.cmd32 6)]) = .next t ∧
      (given [.port (.cmd32 6)]).errCmd = false ∧ t.errCmd = true) ∧
    (∃ t, step (busyGiven .gen [.port (encode (.wr32 0x19 0))]) = .next t ∧
      (busyGiven .gen [.port (encode (.wr32 0x19 0))]).errBusy = false ∧ t.errBusy = true) ∧
    (∃ t, step (pending .trunc) = .next t ∧ (pending .trunc).done = false ∧ t.done = true) :=
  ⟨⟨_, by decide, rfl, rfl, by decide⟩, ⟨_, rfl, rfl, by decide⟩, ⟨_, rfl, rfl, by decide⟩⟩

/-- A write of each half, ZEROIZE and reset. -/
theorem witness_CounterChangesOnlyByWriteZeroizeReset :
    (∃ t, Live (given [.port (encode (.wr32 4 5))]) ∧ step (given [.port (encode (.wr32 4 5))]) = .next t ∧
      t.counter ≠ 0) ∧
    (∃ t, step (given [.port (encode (.wr32 5 5))]) = .next t ∧ t.counter ≠ 0) ∧
    (∃ t, step { pending .zeroize with counter := 1 } = .next t ∧ t.counter ≠ 1) ∧
    (∃ t, step { given [.rst false] with counter := 1 } = .next t ∧ t.counter ≠ 1) :=
  ⟨⟨_, by decide, rfl, by decide⟩, ⟨_, rfl, by decide⟩, ⟨_, rfl, by decide⟩, ⟨_, rfl, by decide⟩⟩

/-- A write of KEY7, ZEROIZE and reset. -/
theorem witness_KeyPersists :
    (∃ t, Live (given [.port (encode (.wr32 15 5))]) ∧ step (given [.port (encode (.wr32 15 5))]) = .next t ∧
      t.key ≠ 0) ∧
    (∃ t, step { pending .zeroize with key := 1 } = .next t ∧ t.key ≠ 1) ∧
    (∃ t, step { given [.rst false] with key := 1 } = .next t ∧ t.key ≠ 1) :=
  ⟨⟨_, by decide, rfl, by decide⟩, ⟨_, rfl, by decide⟩, ⟨_, rfl, by decide⟩⟩

theorem witness_PortsDoNotShowTheKey : ∃ t, step (given [.port (encode (.rd32 8))]) = .next t := ⟨_, rfl⟩

/-- A next state, a fault and a refusal. -/
theorem witness_PendOpIsUnreadWhileIdle :
    (∃ t, (given [.port (.cmd32 1)]).phase = .idle ∧ step (given [.port (.cmd32 1)]) = .next t ∧ t.phase = .busy) ∧
    (step (given [.request (ask .host 256 4)]) = .fault .outsideWindow) ∧
    (step (given [.request (ask .other 0 4)]) = .refused .secondMaster) := by
  refine ⟨⟨_, rfl, rfl, rfl⟩, ?_, rfl⟩
  simp [step, stepOn, given, takeInput, running, request, State.reset, HostRequest.masterOk, HostRequest.widthOk,
    HostRequest.inWindow, ask]

/-- `irq` raised, with DONE and IRQ_EN set. -/
def irqHigh (l : List Input) : State := { State.reset with ctrl := 2, done := true, inbox := l }

/-- `irq` rises by a completion and by a write of CTRL; it falls in each of the four ways. -/
theorem witness_IrqFollowsDoneAndEnable :
    (∃ t, Live { pending .trunc with ctrl := 3 } ∧ step { pending .trunc with ctrl := 3 } = .next t ∧
      irq { pending .trunc with ctrl := 3 } = false ∧ irq t = true) ∧
    (∃ t, step { irqHigh [.port (encode (.wr32 1 2))] with ctrl := 0 } = .next t ∧
      irq { irqHigh [.port (encode (.wr32 1 2))] with ctrl := 0 } = false ∧ irq t = true) ∧
    (∀ e ∈ [Input.port (.cmd32 1), .port (encode (.wr32 3 2)), .port (encode (.wr32 1 0)), .rst false],
      Live (irqHigh [e]) ∧ irq (irqHigh [e]) = true ∧ ∃ t, step (irqHigh [e]) = .next t ∧ irq t = false) := by
  refine ⟨⟨_, by decide, rfl, by decide, by decide⟩, ⟨_, rfl, by decide, by decide⟩, ?_⟩
  intro e he
  simp only [List.mem_cons, List.not_mem_nil, or_false] at he
  rcases he with rfl | rfl | rfl | rfl <;> exact ⟨by decide, by decide, _, rfl, by decide⟩

theorem witness_WriteThenCompletionAtOneEdge :
    Live (busyGiven .gen [.port (encode (.wr32 3 2)), .engine]) ∧
    (busyGiven .gen [.port (encode (.wr32 3 2)), .engine]).phase = .busy ∧
    (busyGiven .gen [.port (encode (.wr32 3 2)), .engine]).inbox = .port (encode (.wr32 3 2)) :: .engine :: [] := by decide

theorem witness_AcceptedCommandCompletes :
    Live (busyGiven .gen [.port (encode (.rd32 3)), .idle, .rst true]) ∧
    (busyGiven .gen [.port (encode (.rd32 3)), .idle, .rst true]).phase = .busy ∧
    ∀ e ∈ (busyGiven .gen [.port (encode (.rd32 3)), .idle, .rst true]).inbox, e.lawful = true := by decide

/-- The first and the last window position. -/
theorem witness_TruncationSelectsTheWrappedWindow : 0 < 8 ∧ 7 < 8 := by decide

theorem witness_BinnedRange : (0x7FFFFFFFFFFFFFFF : Quad).toNat ≤ 2 ^ 63 - 1 := by decide

/-- An instant before the epoch, the epoch itself, and the largest elapsed time that fits. -/
theorem witness_CounterDerivation :
    (0 < 30 ∧ (-1 : Rat) < 0) ∧ (0 < 30 ∧ (0 : Rat) ≤ 0) ∧
    ((0 : Rat) ≤ 18446744073709551615 ∧ ((18446744073709551615 : Rat) - 0).floor < 2 ^ 64) := by decide +kernel

/-- H9: 29 s, then 31 s later. -/
theorem witness_CounterGrowsWithTime :
    0 < 30 ∧ (0 : Rat) ≤ 29 ∧ (29 : Rat) ≤ 60 ∧ ((60 : Rat) - 0).floor < 2 ^ 64 ∧ deriveCounter 29 0 30 = .ok 0 ∧
    (60 : Rat) = 29 + (31 : Nat) := by decide +kernel

theorem witness_DisplayHasElevenDigits : (99999999999 : Quad).toNat < 10 ^ 11 := by decide

theorem witness_BootOrderYieldsTheCode : Live State.reset ∧ State.reset.phase = .idle := by decide

/-- The pin is released, found high, and raised before the first reset. -/
theorem witness_ReleasingTheResetPinChangesNoRegister :
    ∀ s ∈ [low [.rst true], given [.rst true], { given [.rst true] with everReset := false }],
      s.inbox.head? = some (.rst true) := by decide

/-- An idle cycle, a read, a refused write, an illegal word, an `ack` and a high level of the pin, while BUSY. -/
theorem witness_BusyBlockKeepsItsRegisters :
    ∀ e ∈ [Input.idle, .port (encode (.rd32 3)), .port (encode (.wr32 8 5)), .port (.cmd32 6), .port (encode (.wr32 3 0xE)),
        .rst true],
      Live (busyGiven .gen [e]) ∧ (busyGiven .gen [e]).phase = .busy ∧ (busyGiven .gen [e]).done = false ∧
      (busyGiven .gen [e]).errCmd = false ∧ ∃ t, step (busyGiven .gen [e]) = .next t ∧ t.phase = .busy := by
  intro e he
  simp only [List.mem_cons, List.not_mem_nil, or_false] at he
  rcases he with rfl | rfl | rfl | rfl | rfl | rfl <;> exact ⟨by decide, rfl, rfl, rfl, _, rfl, rfl⟩

/-- Reads, an idle cycle and a high level of the pin between, and nothing between. -/
theorem witness_StagesEqualGenWhateverIsRead :
    Live diag ∧ diag.phase = .idle ∧ diag.diagEn = true ∧
    (∀ l ∈ [[Input.port (encode (.rd32 3)), .idle], [.port (encode (.rd32 0x1A)), .rst true], []], ReadsOnly l) := by decide

end Sys2Proof.Tests
end

section
/-! PROOFS. The state's whole-machine rules (10_state): what a write, a completion and a step can change, the invariant
of the block, and what no step depends on. -/

namespace Sys2Proof.Machine

/-! ### What a write can do -/

@[simp] theorem writeCtrl_done (v : Word) (s : State) : (writeCtrl v s).done = s.done := by
  unfold writeCtrl; split <;> rfl

@[simp] theorem writeCtrl_errCmd (v : Word) (s : State) : (writeCtrl v s).errCmd = s.errCmd := by
  unfold writeCtrl; split <;> rfl

@[simp] theorem writeCtrl_errBusy (v : Word) (s : State) : (writeCtrl v s).errBusy = s.errBusy := by
  unfold writeCtrl; split <;> rfl

@[simp] theorem writeCtrl_counter (v : Word) (s : State) : (writeCtrl v s).counter = s.counter := by
  unfold writeCtrl; split <;> rfl

@[simp] theorem writeCtrl_code (v : Word) (s : State) : (writeCtrl v s).code = s.code := by
  unfold writeCtrl; split <;> rfl

@[simp] theorem writeCtrl_phase (v : Word) (s : State) : (writeCtrl v s).phase = s.phase := by
  unfold writeCtrl; split <;> rfl

/-- CTRL.IRQ_EN after a write of CTRL is bit 1 of the word written (42_commands R153). -/
theorem writeCtrl_irqEn (v : Word) (s : State) : (writeCtrl v s).irqEn = v.getLsbD 1 := by
  rw [State.irqEn, writeCtrl_ctrl, getLsbD_ctrl_of_word v 1 (by decide)]

/-- What a write of `v` at index `a` makes of `s`: the cases of `memWrite_cases`, by name. -/
inductive WriteOutcome (a : WordIndex) (v : Word) (s : State) : State → Prop
  | ignored : WriteOutcome a v s s
  | status (ha : a = 3) : WriteOutcome a v s (writeStatus v s)
  | refused (hp : s.phase = .busy) (ha : a = 1 ∨ a = 2 ∨ a = 4 ∨ a = 5 ∨ (8 ≤ a.toNat ∧ a.toNat ≤ 0x19)) :
      WriteOutcome a v s (raiseErrBusy s)
  | ctrl (hp : s.phase = .idle) (ha : a = 1) : WriteOutcome a v s (writeCtrl v s)
  | illegal (hp : s.phase = .idle) (ha : a = 2) (hd : decodeCmd v s.diagEn = .illegal) :
      WriteOutcome a v s (raiseErrCmd s)
  | accepted (hp : s.phase = .idle) (ha : a = 2) (o : Op) (hd : decodeCmd v s.diagEn = .op o) :
      WriteOutcome a v s (accept o s)
  | counter (hp : s.phase = .idle) (ha : a = 4 ∨ a = 5) (q : Quad) : WriteOutcome a v s { s with counter := q }
  | key (hp : s.phase = .idle) (ha : 8 ≤ a.toNat ∧ a.toNat ≤ 15) (k : Wide) : WriteOutcome a v s { s with key := k }
  | digest (hp : s.phase = .idle) (hd : s.diagEn = true) (d : Wide) : WriteOutcome a v s { s with digest := d }
  | binned (hp : s.phase = .idle) (hd : s.diagEn = true) (q : Quad) : WriteOutcome a v s { s with binned := q }

theorem memWrite_outcome (a : WordIndex) (v : Word) (s : State) : WriteOutcome a v s (memWrite a v s) := by
  rcases memWrite_cases a v s with e | ⟨ha, e⟩ | ⟨hp, ha, e⟩ | ⟨hp, ha, e⟩ | ⟨hp, ha, hd, e⟩ | ⟨hp, ha, o, hd, e⟩ |
    ⟨hp, ha, e⟩ | ⟨hp, ha, e⟩ | ⟨hp, ha, i, e⟩ | ⟨hp, hd, i, e⟩ | ⟨hp, hd, q, e⟩ <;> rw [e]
  · exact .ignored
  · exact .status ha
  · exact .refused hp ha
  · exact .ctrl hp ha
  · exact .illegal hp ha hd
  · exact .accepted hp ha o hd
  · exact .counter hp (.inl ha) _
  · exact .counter hp (.inr ha) _
  · exact .key hp ha _
  · exact .digest hp hd _
  · exact .binned hp hd q

namespace WriteOutcome

variable {a : WordIndex} {v : Word} {s u : State}

/-- A write changes `phase` by acceptance alone, and then `pend_op` is the command decoded (42_commands R132). -/
theorem accepted_of_phase_ne (h : WriteOutcome a v s u) (hne : u.phase ≠ s.phase) :
    s.phase = .idle ∧ a = 2 ∧ decodeCmd v s.diagEn = .op u.pendOp := by
  cases h with
  | accepted hp ha o hd => exact ⟨hp, ha, hd⟩
  | _ => simp at hne

theorem status_of_errCmd_cleared (h : WriteOutcome a v s u) (hs : s.errCmd = true) (hu : u.errCmd = false) :
    a = 3 ∧ v.getLsbD 2 = true := by
  cases h with
  | status ha => exact ⟨ha, by simpa [hs] using hu⟩
  | _ => simp [hs] at hu

theorem status_of_errBusy_cleared (h : WriteOutcome a v s u) (hs : s.errBusy = true) (hu : u.errBusy = false) :
    a = 3 ∧ v.getLsbD 3 = true := by
  cases h with
  | status ha => exact ⟨ha, by simpa [hs] using hu⟩
  | _ => simp [hs] at hu

theorem status_or_accepted_of_done_cleared (h : WriteOutcome a v s u) (hs : s.done = true) (hu : u.done = false) :
    (a = 3 ∧ v.getLsbD 1 = true) ∨ (s.phase = .idle ∧ u.phase = .busy) := by
  cases h with
  | status ha => exact .inl ⟨ha, by simpa [hs] using hu⟩
  | accepted hp ha o hd => exact .inr ⟨hp, rfl⟩
  | _ => simp [hs] at hu

theorem illegal_of_errCmd_set (h : WriteOutcome a v s u) (hs : s.errCmd = false) (hu : u.errCmd = true) :
    s.phase = .idle ∧ a = 2 ∧ decodeCmd v s.diagEn = .illegal := by
  cases h with
  | illegal hp ha hd => exact ⟨hp, ha, hd⟩
  | _ => simp [hs] at hu

theorem refused_of_errBusy_set (h : WriteOutcome a v s u) (hs : s.errBusy = false) (hu : u.errBusy = true) :
    s.phase = .busy ∧ (a = 1 ∨ a = 2 ∨ a = 4 ∨ a = 5 ∨ (8 ≤ a.toNat ∧ a.toNat ≤ 0x19)) := by
  cases h with
  | refused hp ha => exact ⟨hp, ha⟩
  | _ => simp [hs] at hu

/-- No write sets DONE: completion alone does (42_commands R141). -/
theorem done_stays_clear (h : WriteOutcome a v s u) (hs : s.done = false) : u.done = false := by
  cases h <;> simp [hs]

theorem counter_of_counter_ne (h : WriteOutcome a v s u) (hne : u.counter ≠ s.counter) :
    s.phase = .idle ∧ (a = 4 ∨ a = 5) := by
  cases h with
  | counter hp ha q => exact ⟨hp, ha⟩
  | _ => simp at hne

theorem ctrl_of_irqEn_ne (h : WriteOutcome a v s u) (hne : u.irqEn ≠ s.irqEn) :
    s.phase = .idle ∧ a = 1 ∧ u.irqEn = v.getLsbD 1 := by
  cases h with
  | ctrl hp ha => exact ⟨hp, ha, writeCtrl_irqEn v s⟩
  | _ => simp [State.irqEn] at hne

end WriteOutcome

/-! ### What a step of a running block can do -/

/-- What a step makes of a running block: a write takes effect, nothing but the inputs and the read data changes, the
pending command completes, or reset is taken. -/
inductive StepOutcome (s : State) : State → Prop
  | write (rest : List Input) {a : WordIndex} {v : Word} {u : State} (hw : nextWrite s = some (a, v))
      (ho : WriteOutcome a v s u) : StepOutcome s { u with inbox := rest, rdata := none }
  | keep (rest : List Input) (d : Option Word) : StepOutcome s { s with inbox := rest, rdata := d }
  | complete (rest : List Input) (d : Option Word) (hw : nextWrite s = none) (hp : s.phase = .busy) :
      StepOutcome s (finish (effect s.pendOp { s with inbox := rest, rdata := d }))
  | reset (hr : NextIsReset s) (u : State) : StepOutcome s (takeReset u)

theorem idle_or_busy (s : State) : s.phase = .idle ∨ s.phase = .busy := by cases s.phase <;> simp

/-- The engine's turn completes the pending command of a busy block and keeps an idle one (42_commands R140). -/
theorem engineTurn_outcome (s : State) (rest : List Input) (d : Option Word) (hw : nextWrite s = none) :
    StepOutcome s (engineTurn { s with inbox := rest, rdata := d }) := by
  rcases idle_or_busy s with hp | hp
  · rw [engineTurn_of_idle { s with inbox := rest, rdata := d } hp]
    exact .keep rest d
  · rw [engineTurn_of_busy { s with inbox := rest, rdata := d } hp]
    exact .complete rest d hw hp

/-- The cases of `step_cases`, with the write tied to `nextWrite` and the engine's turn split by `phase`. -/
theorem step_outcome {s t : State} (hl : Live s) (h : step s = .next t) : StepOutcome s t := by
  rcases step_cases s t hl h with ⟨e, rest, a, v, hi, hw, rfl⟩ | ⟨e, rest, a, hi, hw, -, rfl⟩ | ⟨rest, hi, rfl⟩ |
    ⟨rest, hi, rfl⟩ | ⟨rest, hi, rfl⟩ | ⟨rest, hi, rfl⟩ | ⟨hi, rfl⟩
  · have hn : nextWrite s = some (a, v) := by simp [nextWrite, hi, hw]
    rw [memWrite_inbox]
    exact .write (u := memWrite a v s) rest hn (memWrite_outcome a v s)
  · exact .keep rest _
  · exact .keep rest none
  · exact engineTurn_outcome s rest s.rdata (by simp [nextWrite, hi, writeOf])
  · exact .keep rest s.rdata
  · exact .reset (by simp [NextIsReset, hi]) _
  · exact engineTurn_outcome s s.inbox none (by simp [nextWrite, hi])

/-- CTRL.IRQ_EN changes by a write of CTRL while IDLE, to bit 1 of the word, and by reset, to 0 (10_state R25). -/
theorem StepOutcome.ctrl_or_reset_of_irqEn_ne {s t : State} (h : StepOutcome s t) (hne : t.irqEn ≠ s.irqEn) :
    (s.phase = .idle ∧ ∃ v, nextWrite s = some (1, v) ∧ v.getLsbD 1 = t.irqEn) ∨ (NextIsReset s ∧ t.irqEn = false) := by
  cases h with
  | write rest hw ho =>
    obtain ⟨hp, rfl, hv⟩ := ho.ctrl_of_irqEn_ne hne
    exact .inl ⟨hp, _, hw, hv.symm⟩
  | keep => exact absurd rfl hne
  | complete => simp [State.irqEn, effect_frame] at hne
  | reset hr => exact .inr ⟨hr, by simp [State.irqEn]⟩

/-! ### What changes phase, the flags, COUNTER and irq -/

/-- Settles O32, by the cases of a step. -/
theorem phaseChangesOnlyByAcceptanceAndCompletion : Obligations.PhaseChangesOnlyByAcceptanceAndCompletion := by
  intro s t hl h hne
  cases step_outcome hl h with
  | write rest hw ho =>
    obtain ⟨hp, rfl, hd⟩ := ho.accepted_of_phase_ne hne
    exact .inl ⟨hp, _, hw, hd⟩
  | keep => exact absurd rfl hne
  | complete rest d hw hp => exact .inr (.inl ⟨hp, rfl, hw⟩)
  | reset hr => exact .inr (.inr hr)

/-- Settles O33, by the cases of a step: a completion keeps the error flags and sets DONE. -/
theorem flagsAreClearedOnlyAsTheSpecSays : Obligations.FlagsAreClearedOnlyAsTheSpecSays := by
  intro s t hl h
  cases step_outcome hl h with
  | write rest hw ho =>
    refine ⟨fun hs ht => ?_, fun hs ht => ?_, fun hs ht => ?_⟩
    · obtain ⟨rfl, hv⟩ := ho.status_of_errCmd_cleared hs ht
      exact .inl ⟨_, hw, hv⟩
    · obtain ⟨rfl, hv⟩ := ho.status_of_errBusy_cleared hs ht
      exact .inl ⟨_, hw, hv⟩
    · rcases ho.status_or_accepted_of_done_cleared hs ht with ⟨rfl, hv⟩ | hp
      · exact .inl ⟨_, hw, hv⟩
      · exact .inr (.inl hp)
  | keep => simp +contextual
  | complete => simp +contextual [effect_frame]
  | reset hr => exact ⟨fun _ _ => .inr hr, fun _ _ => .inr hr, fun _ _ => .inr (.inr hr)⟩

/-- Settles O34, by the cases of a step: reset sets no flag, and a completion sets DONE alone. -/
theorem flagsAreSetOnlyAsTheSpecSays : Obligations.FlagsAreSetOnlyAsTheSpecSays := by
  intro s t hl h
  cases step_outcome hl h with
  | write rest hw ho =>
    refine ⟨fun hs ht => ?_, fun hs ht => ?_, fun hs ht => ?_⟩
    · obtain ⟨hp, rfl, hd⟩ := ho.illegal_of_errCmd_set hs ht
      exact ⟨hp, _, hw, hd⟩
    · obtain ⟨hp, ha⟩ := ho.refused_of_errBusy_set hs ht
      exact ⟨hp, _, _, hw, ha⟩
    · simp [ho.done_stays_clear hs] at ht
  | keep => simp +contextual
  | complete rest d hw hp => simp +contextual [effect_frame, hp]
  | reset => simp

/-- Settles O35, by the cases of a step: of the completions ZEROIZE alone writes COUNTER. -/
theorem counterChangesOnlyByWriteZeroizeReset : Obligations.CounterChangesOnlyByWriteZeroizeReset := by
  intro s t hl h hne
  cases step_outcome hl h with
  | write rest hw ho =>
    obtain ⟨hp, rfl | rfl⟩ := ho.counter_of_counter_ne hne
    · exact .inl ⟨hp, _, .inl hw⟩
    · exact .inl ⟨hp, _, .inr hw⟩
  | keep => exact absurd rfl hne
  | complete rest d hw hp =>
    have hz : s.pendOp = .zeroize := by
      by_contra hz
      simp [effect_operands, hz] at hne
    exact .inr (.inl ⟨hp, hz, rfl, by simp [effect_operands, hz]⟩)
  | reset hr => exact .inr (.inr hr)

/-- Settles O39: `irq` moves with DONE or with IRQ_EN, and both movements are known (10_state R25, R27). -/
theorem irqFollowsDoneAndEnable : Obligations.IrqFollowsDoneAndEnable := by
  intro s t hl h
  have enable := (step_outcome hl h).ctrl_or_reset_of_irqEn_ne
  obtain ⟨-, -, cleared⟩ := flagsAreClearedOnlyAsTheSpecSays s t hl h
  obtain ⟨-, -, set⟩ := flagsAreSetOnlyAsTheSpecSays s t hl h
  refine ⟨rfl, fun hs ht => ?_, fun hs ht => ?_⟩
  · obtain ⟨te, td⟩ : t.irqEn = true ∧ t.done = true := by simpa [irq] using ht
    cases sd : s.done with
    | false =>
      obtain ⟨hp, tp⟩ := set sd td
      refine .inl ⟨hp, tp, ?_⟩
      by_contra se
      rcases enable (by simp [te, se]) with ⟨hi, -⟩ | ⟨-, tf⟩
      · simp [hp] at hi
      · simp [te] at tf
    | true =>
      have se : s.irqEn = false := by simpa [irq, sd] using hs
      rcases enable (by simp [te, se]) with ⟨hp, v, hw, hv⟩ | ⟨-, tf⟩
      · exact .inr ⟨hp, rfl, v, hw, hv.trans te⟩
      · simp [te] at tf
  · obtain ⟨se, sd⟩ : s.irqEn = true ∧ s.done = true := by simpa [irq] using hs
    cases td : t.done with
    | false =>
      rcases cleared sd td with hw | hp | hr
      · exact .inr (.inl hw)
      · exact .inl hp
      · exact .inr (.inr (.inr hr))
    | true =>
      have te : t.irqEn = false := by simpa [irq, td] using ht
      rcases enable (by simp [te, se]) with ⟨hp, v, hw, hv⟩ | ⟨hr, -⟩
      · exact .inr (.inr (.inl ⟨hp, v, hw, hv.trans te⟩))
      · exact .inr (.inr (.inr hr))

/-! ### The invariant of the block -/

/-- Settles O6: every field of the reset state is at its reset value (70_reset R200). -/
theorem resetStateMeetsBlockInv : Obligations.ResetStateMeetsBlockInv := by
  unfold Obligations.ResetStateMeetsBlockInv
  decide

/-- The block meets its invariant after every reset taken (70_reset R200). -/
theorem takeReset_blockInv (s : State) : BlockInv (takeReset s) :=
  ⟨fun _ => ⟨rfl, rfl, rfl⟩, by simp, by simp, fun _ => rfl, fun hp => by simp at hp⟩

/-- A stage command decodes in diagnostic mode alone (30_encoding R72). -/
theorem diag_of_decodeCmd_op {w : Word} {diag : Bool} {o : Op} (h : decodeCmd w diag = .op o) :
    diag = true ∨ o = .gen ∨ o = .zeroize := by
  rw [(word_of_decodeCmd w diag).1 o h, decodeCmd_word] at h
  by_contra hm
  simp [hm] at h

/-- A write of CTRL that leaves diagnostic mode clears the intermediates (42_commands R153). -/
theorem writeCtrl_diagInv (v : Word) (s : State) (h : DiagInv s) : DiagInv (writeCtrl v s) := by
  intro hd
  have hv : v.getLsbD 0 = false := by
    rwa [State.diagEn, writeCtrl_ctrl, getLsbD_ctrl_of_word v 0 (by decide)] at hd
  rw [writeCtrl_eq]
  split
  · exact ⟨rfl, rfl, rfl⟩
  · next hs => exact h (Bool.eq_false_of_not_eq_true fun hd => hs ⟨hd, hv⟩)

theorem writeCtrl_offsetInv (v : Word) (s : State) (h : OffsetInv s) : OffsetInv (writeCtrl v s) := by
  rw [writeCtrl_eq]
  split
  · exact (by decide : (0 : BitVec 5).toNat < 28)
  · exact h

/-- No write breaks the invariant: CTRL is written while IDLE alone, DIGEST and BINNED in diagnostic mode alone. -/
theorem WriteOutcome.blockInv {a : WordIndex} {v : Word} {s u : State} (h : WriteOutcome a v s u) (hi : BlockInv s) :
    BlockInv u := by
  obtain ⟨hdiag, hcode, hoff, hbusy, hstage⟩ := hi
  cases h with
  | ignored => exact ⟨hdiag, hcode, hoff, hbusy, hstage⟩
  | status => exact ⟨hdiag, hcode, hoff, fun hp => by simp [hbusy hp], hstage⟩
  | refused => exact ⟨hdiag, hcode, hoff, hbusy, hstage⟩
  | ctrl hp =>
    refine ⟨writeCtrl_diagInv v s hdiag, ?_, writeCtrl_offsetInv v s hoff, fun hb => ?_, fun hb => ?_⟩
    · rwa [CodeInv, writeCtrl_code]
    · simp [hp] at hb
    · simp [hp] at hb
  | illegal => exact ⟨hdiag, hcode, hoff, hbusy, hstage⟩
  | accepted hp ha o hd =>
    refine ⟨hdiag, hcode, hoff, fun _ => rfl, fun _ ho => ?_⟩
    rcases diag_of_decodeCmd_op hd with hs | rfl | rfl
    · exact hs
    · simp at ho
    · simp at ho
  | counter => exact ⟨hdiag, hcode, hoff, hbusy, hstage⟩
  | key => exact ⟨hdiag, hcode, hoff, hbusy, hstage⟩
  | digest hp hd => exact ⟨fun hn => absurd (hd.symm.trans hn) (by decide), hcode, hoff, hbusy, hstage⟩
  | binned hp hd => exact ⟨fun hn => absurd (hd.symm.trans hn) (by decide), hcode, hoff, hbusy, hstage⟩

/-- A completion keeps the diagnostic invariant if a stage command completes in diagnostic mode alone (10_state R36). -/
theorem effect_diagInv (o : Op) (s : State) (h : DiagInv s)
    (hm : o = .hash ∨ o = .trunc ∨ o = .reduce → s.diagEn = true) : DiagInv (effect o s) := by
  intro hd
  replace hd : s.diagEn = false := by simpa [State.diagEn, effect_frame] using hd
  cases o with
  | gen => simpa [effect, completeGen_eq, hd] using h hd
  | hash => simp [hd] at hm
  | trunc => simp [hd] at hm
  | reduce => simp [hd] at hm
  | zeroize => exact ⟨rfl, rfl, rfl⟩

/-- The completion of the pending command keeps the invariant, and ends in an IDLE block. -/
theorem complete_blockInv (s : State) (hp : s.phase = .busy) (h : BlockInv s) :
    BlockInv (finish (effect s.pendOp s)) := by
  obtain ⟨hdiag, hcode, hoff, -, hstage⟩ := h
  exact ⟨effect_diagInv s.pendOp s hdiag (hstage hp), effect_code_lt s.pendOp s hcode, effect_offset_lt s.pendOp s hoff,
    fun hb => by simp at hb, fun hb => by simp at hb⟩

/-- A step of a running block keeps the invariant. -/
theorem StepOutcome.blockInv {s t : State} (h : StepOutcome s t) (hi : BlockInv s) : BlockInv t := by
  cases h with
  | write rest hw ho => exact ho.blockInv hi
  | keep => exact hi
  | complete rest d hw hp => exact complete_blockInv { s with inbox := rest, rdata := d } hp hi
  | reset hr u => exact takeReset_blockInv u

/-- Settles O30: a running block by the cases of its step, and a block in reset or before it because it takes reset or
keeps its registers. -/
theorem everyStepKeepsBlockInv : Obligations.EveryStepKeepsBlockInv := by
  intro s t hi h
  by_cases hl : Live s
  · exact (step_outcome hl h).blockInv hi
  · rcases step_not_live s t hl h with ⟨u, v, rfl⟩ | ⟨u, rfl⟩ | ⟨rest, rfl⟩
    · exact takeReset_blockInv u
    · exact takeReset_blockInv u
    · exact hi

/-! ### What no step depends on -/

/-- What one step does to the registers: the input it takes, once the port, the pin and the block's history have been
read. -/
inductive Action where
  | write (a : WordIndex) (v : Word)
  | read (a : WordIndex)
  | idle
  | engine
  | quiet
  | pin (level : Bool)
  | reset
  | resetRead

/-- The state an action leads to. -/
def Action.apply (x : Action) (s : State) : State :=
  match x with
  | .write a v => noAnswer (memWrite a v s)
  | .read a => answer (memRead a s) s
  | .idle => noAnswer s
  | .engine => engineTurn s
  | .quiet => engineTurn (noAnswer s)
  | .pin level => pinRst level s
  | .reset => takeReset s
  | .resetRead => answer 0 (takeReset s)

/-- Two states agree on what decides which action a step takes: the inputs, the pin and the block's history. -/
def SameFront (s u : State) : Prop := u.inbox = s.inbox ∧ u.rstN = s.rstN ∧ u.everReset = s.everReset

/-- A family of results that stops in one way, or takes one action. -/
inductive Uniform (f : State → Result) : Prop
  | fault (e : Fault) (h : ∀ s, f s = .fault e)
  | refused (r : Refusal) (h : ∀ s, f s = .refused r)
  | next (x : Action) (h : ∀ s, f s = .next (x.apply s))

theorem present_uniform (b : BusWord) : Uniform (present b) := by
  cases hw : writeOf (.port b) with
  | some p => exact .next (.write p.1 p.2) fun s => by rw [present_eq, hw]; rfl
  | none => exact .next (.read _) fun s => by rw [present_eq, hw]; rfl

theorem presentInReset_uniform (b : BusWord) : Uniform fun s => .next (presentInReset b s) := by
  cases hr : isRead b with
  | true => exact .next .resetRead fun s => by simp [presentInReset, hr, Action.apply]
  | false => exact .next .reset fun s => by simp [presentInReset, hr, Action.apply]

/-- The checks of a request read the request alone (20_memory R50, R52, R67). -/
theorem request_uniform (r : HostRequest) (k : BusWord → State → Result) (hk : ∀ b, Uniform (k b)) :
    Uniform fun s => request r fun b => k b s := by
  unfold request
  split_ifs
  · exact .refused _ fun _ => rfl
  · exact .refused _ fun _ => rfl
  · exact .fault _ fun _ => rfl
  · exact .refused _ fun _ => rfl
  · exact hk _

theorem inReset_uniform (e : Input) : Uniform (inReset e) := by
  cases e with
  | port b => exact presentInReset_uniform b
  | request r => exact request_uniform r _ presentInReset_uniform
  | idle => exact .next .reset fun _ => rfl
  | engine => exact .next .reset fun _ => rfl
  | rst level => exact .next (.pin level) fun _ => rfl

theorem beforeReset_uniform (e : Input) : Uniform (beforeReset e) := by
  cases e with
  | rst level => exact .next (.pin level) fun _ => rfl
  | _ => exact .refused _ fun _ => rfl

theorem running_uniform (e : Input) : Uniform (running e) := by
  cases e with
  | port b => exact present_uniform b
  | request r => exact request_uniform r _ present_uniform
  | idle => exact .next .idle fun _ => rfl
  | engine => exact .next .engine fun _ => rfl
  | rst level => exact .next (.pin level) fun _ => rfl

/-- What a step does is decided by the inputs, the pin and the block's history (20_memory R51, 70_reset R200, R202). -/
theorem step_uniform (s : State) :
    ∃ f, Uniform f ∧ ∀ u, SameFront s u → step u = f { u with inbox := s.inbox.tail } := by
  cases hi : s.inbox with
  | nil =>
    have stay (u : State) (hu : u.inbox = []) : { u with inbox := [] } = u := by rw [← hu]
    cases hr : s.rstN with
    | false =>
      refine ⟨_, .next .reset fun _ => rfl, fun u ⟨ui, ur, _⟩ => ?_⟩
      rw [hi] at ui; rw [hr] at ur
      rw [List.tail_nil, stay u ui]
      simp [step, stepOn, ui, quiet, ur, Action.apply]
    | true =>
      cases he : s.everReset with
      | false =>
        refine ⟨_, .refused .launchedWithoutReset fun _ => rfl, fun u ⟨ui, ur, ue⟩ => ?_⟩
        simp [step, stepOn, ui, hi, quiet, ur, hr, ue, he]
      | true =>
        refine ⟨_, .next .quiet fun _ => rfl, fun u ⟨ui, ur, ue⟩ => ?_⟩
        rw [List.tail_nil, stay u (ui.trans hi)]
        exact step_nil u ⟨ur.trans hr, ue.trans he⟩ (ui.trans hi)
  | cons e rest =>
    cases hr : s.rstN with
    | false =>
      refine ⟨_, inReset_uniform e, fun u ⟨ui, ur, _⟩ => ?_⟩
      simp [step, stepOn, ui, hi, takeInput, ur, hr]
    | true =>
      cases he : s.everReset with
      | false =>
        refine ⟨_, beforeReset_uniform e, fun u ⟨ui, ur, ue⟩ => ?_⟩
        simp [step, stepOn, ui, hi, takeInput, ur, hr, ue, he]
      | true =>
        refine ⟨_, running_uniform e, fun u ⟨ui, ur, ue⟩ => ?_⟩
        exact step_cons u e rest ⟨ur.trans hr, ue.trans he⟩ (ui.trans hi)

/-- An update reads KEY for the new KEY alone, and `pend_op` for the new `pend_op` alone. -/
def KeyPendOpApart (f : State → State) : Prop :=
  ∀ s k o, f { s with key := k, pendOp := o } =
    { f s with key := (f { s with key := k }).key, pendOp := (f { s with pendOp := o }).pendOp }

/-- A choice between two such updates is one if the choice reads neither. -/
theorem ite_apart {c : State → Bool} {f g : State → State} (hc : ∀ s k o, c { s with key := k, pendOp := o } = c s)
    (hf : KeyPendOpApart f) (hg : KeyPendOpApart g) : KeyPendOpApart fun s => if c s then f s else g s := by
  intro s k o
  simp only [hc s k o, hc s k s.pendOp, hc s s.key o]
  cases c s with
  | true => exact hf s k o
  | false => exact hg s k o

theorem whileIdle_apart {f : State → State} (hf : KeyPendOpApart f) : KeyPendOpApart (whileIdle f) :=
  ite_apart (c := State.busy) (f := raiseErrBusy) (fun _ _ _ => rfl) (fun _ _ _ => rfl) hf

/-- An update made in diagnostic mode alone (42_commands R156, R157). -/
theorem ifDiag_apart {f : State → State} (hf : KeyPendOpApart f) :
    KeyPendOpApart fun s => if s.diagEn then f s else s :=
  ite_apart (c := State.diagEn) (g := id) (fun _ _ _ => rfl) hf fun _ _ _ => rfl

theorem writeCtrl_apart (v : Word) : KeyPendOpApart (writeCtrl v) :=
  ite_apart (c := fun s => s.diagEn && !v.getLsbD 0)
    (f := fun s => clearIntermediates { s with ctrl := v.extractLsb' 0 2 })
    (g := fun s => { s with ctrl := v.extractLsb' 0 2 }) (fun _ _ _ => rfl) (fun _ _ _ => rfl) fun _ _ _ => rfl

theorem dispatchCmd_apart (w : Word) : KeyPendOpApart (dispatchCmd w) := by
  intro s k o
  simp only [dispatchCmd, State.diagEn]
  cases decodeCmd w (s.ctrl.getLsbD 0) <;> rfl

/-- The writes refused while BUSY rest on `whileIdle_apart`, those of diagnostic mode on `ifDiag_apart`. -/
theorem writeReg_apart (r : Reg) (v : Word) : KeyPendOpApart (writeReg r v) := by
  have digest (i : BitVec 3) : KeyPendOpApart fun s => { s with digest := setWord s.digest i v } := fun _ _ _ => rfl
  have binnedLo : KeyPendOpApart fun s => { s with binned := quad (hi s.binned) v } := fun _ _ _ => rfl
  have binnedHi : KeyPendOpApart fun s => { s with binned := quad v (lo s.binned) } := fun _ _ _ => rfl
  cases r with
  | ctrl => exact whileIdle_apart (writeCtrl_apart v)
  | cmd => exact whileIdle_apart (dispatchCmd_apart v)
  | ctrLo => exact whileIdle_apart fun _ _ _ => rfl
  | ctrHi => exact whileIdle_apart fun _ _ _ => rfl
  | key i => exact whileIdle_apart fun _ _ _ => rfl
  | digest i => exact whileIdle_apart (ifDiag_apart (digest i))
  | binnedLo => exact whileIdle_apart (ifDiag_apart binnedLo)
  | binnedHi => exact whileIdle_apart (ifDiag_apart binnedHi)
  | _ => exact fun _ _ _ => rfl

/-- A write reads KEY and `pend_op` for their own new values alone (42_commands R131, R155). -/
theorem memWrite_apart (a : WordIndex) (v : Word) : KeyPendOpApart (memWrite a v) := by
  unfold memWrite
  cases regAt a with
  | some r => exact writeReg_apart r v
  | none => exact fun _ _ _ => rfl

/-- Two states show the same at the ports: the read data, STATUS and `irq`. -/
def SamePorts (s u : State) : Prop := u.rdata = s.rdata ∧ statusWord u = statusWord s ∧ irq u = irq s

/-- STATUS and `irq` are functions of CTRL, the flags and `phase` (20_memory R56, 10_state R35). -/
theorem samePorts_of_fields {s u : State} (hr : u.rdata = s.rdata) (hc : u.ctrl = s.ctrl) (hd : u.done = s.done)
    (he : u.errCmd = s.errCmd) (hb : u.errBusy = s.errBusy) (hp : u.phase = s.phase) : SamePorts s u := by
  refine ⟨hr, ?_, ?_⟩
  · simp [statusWord, State.busy, hd, he, hb, hp]
  · simp [irq, State.irqEn, hc, hd]

/-- A completion shows nothing of KEY: only data registers depend on it (42_commands R134 to R138). -/
theorem engineTurn_samePorts (s : State) (k : Wide) : SamePorts (engineTurn s) (engineTurn { s with key := k }) := by
  rcases idle_or_busy s with hp | hp
  · rw [engineTurn_of_idle s hp, engineTurn_of_idle { s with key := k } hp]
    exact ⟨rfl, rfl, rfl⟩
  · rw [engineTurn_of_busy s hp, engineTurn_of_busy { s with key := k } hp]
    apply samePorts_of_fields <;> simp [effect_frame]

/-- No action shows KEY at the ports. -/
theorem Action.samePorts (x : Action) (s : State) (k : Wide) : SamePorts (x.apply s) (x.apply { s with key := k }) := by
  cases x with
  | write a v =>
    have e : (write a v).apply { s with key := k } = _ := congrArg noAnswer (memWrite_apart a v s k s.pendOp)
    rw [e]
    exact ⟨rfl, rfl, rfl⟩
  | read a =>
    refine ⟨?_, rfl, rfl⟩
    exact congrArg some (memRead_congr a s { s with key := k } rfl rfl rfl rfl rfl rfl rfl)
  | engine => exact engineTurn_samePorts s k
  | quiet => exact engineTurn_samePorts (noAnswer s) k
  | idle => exact ⟨rfl, rfl, rfl⟩
  | pin level => cases level <;> exact ⟨rfl, rfl, rfl⟩
  | reset => exact ⟨rfl, rfl, rfl⟩
  | resetRead => exact ⟨rfl, rfl, rfl⟩

/-- Settles O37: both states take the same action, and no action shows KEY. -/
theorem portsDoNotShowTheKey : Obligations.PortsDoNotShowTheKey := by
  intro s t k h
  obtain ⟨f, hf, hstep⟩ := step_uniform s
  rw [hstep s ⟨rfl, rfl, rfl⟩] at h
  rw [hstep { s with key := k } ⟨rfl, rfl, rfl⟩]
  cases hf with
  | fault e he => simp [he] at h
  | refused r hr => simp [hr] at h
  | next x hx =>
    rw [hx, Host.Outcome.next.injEq] at h
    subst h
    exact ⟨_, hx _, x.samePorts { s with inbox := s.inbox.tail } k⟩

/-- What an action leaves of an idle block does not depend on `pend_op`, but for `pend_op` (10_state R34). -/
theorem Action.apply_pendOp (x : Action) (s : State) (o : Op) (hp : s.phase = .idle) :
    x.apply { s with pendOp := o } = { x.apply s with pendOp := (x.apply { s with pendOp := o }).pendOp } := by
  cases x with
  | write a v => exact congrArg noAnswer (memWrite_apart a v s s.key o)
  | read a =>
    have e := memRead_congr a s { s with pendOp := o } rfl rfl rfl rfl rfl rfl rfl
    simp only [Action.apply, e, answer]
  | engine => simp only [Action.apply, engineTurn_of_idle s hp, engineTurn_of_idle { s with pendOp := o } hp]
  | quiet =>
    simp only [Action.apply, engineTurn_of_idle (noAnswer s) hp,
      engineTurn_of_idle (noAnswer { s with pendOp := o }) hp]
    rfl
  | idle => rfl
  | pin level => cases level <;> rfl
  | reset => rfl
  | resetRead => rfl

/-- An action makes an idle block busy by acceptance alone. -/
theorem Action.accepted_of_busy (x : Action) (s : State) (hp : s.phase = .idle) (hb : (x.apply s).phase = .busy) :
    ∃ v, x = .write 2 v ∧ decodeCmd v s.diagEn = .op (x.apply s).pendOp := by
  cases x with
  | write a v =>
    obtain ⟨-, rfl, hd⟩ := (memWrite_outcome a v s).accepted_of_phase_ne fun e => by simp [apply, e, hp] at hb
    exact ⟨v, rfl, hd⟩
  | engine => simp [apply, engineTurn_of_idle s hp, hp] at hb
  | quiet => simp [apply, engineTurn_of_idle (noAnswer s) hp, hp] at hb
  | pin level => cases level <;> simp [apply, pinRst, hp] at hb
  | _ => simp [apply, hp] at hb

/-- After an acceptance `pend_op` is the command decoded, whatever it was before (42_commands R132). -/
theorem Action.pendOp_of_busy (x : Action) (s : State) (o : Op) (hp : s.phase = .idle)
    (hb : (x.apply s).phase = .busy) : (x.apply { s with pendOp := o }).pendOp = (x.apply s).pendOp := by
  have hb' : (x.apply { s with pendOp := o }).phase = .busy := by rw [x.apply_pendOp s o hp]; exact hb
  obtain ⟨v, rfl, hv⟩ := x.accepted_of_busy s hp hb
  obtain ⟨w, hw, hd⟩ := Action.accepted_of_busy _ { s with pendOp := o } hp hb'
  obtain ⟨-, rfl⟩ := Action.write.inj hw
  exact CmdDecode.op.inj (hd.symm.trans hv)

/-- Settles O38: both states stop in one way or take the same action, and no action of an idle block reads `pend_op`. -/
theorem pendOpIsUnreadWhileIdle : Obligations.PendOpIsUnreadWhileIdle := by
  intro s o hp
  obtain ⟨f, hf, hstep⟩ := step_uniform s
  rw [hstep s ⟨rfl, rfl, rfl⟩, hstep { s with pendOp := o } ⟨rfl, rfl, rfl⟩]
  cases hf with
  | fault e he => simp [he]
  | refused r hr => simp [hr]
  | next x hx =>
    simp only [hx, reduceCtorEq, false_implies, implies_true, and_true]
    rintro _ ⟨rfl⟩
    exact ⟨_, rfl, x.apply_pendOp { s with inbox := s.inbox.tail } o hp,
      x.pendOp_of_busy { s with inbox := s.inbox.tail } o hp⟩

end Sys2Proof.Machine
end

section
/-! PROOFS. The register map at the port (20_memory): what a read answers, which writes are ignored, when the read data
are valid, and where a request by host address arrives. -/

namespace Sys2Proof.Machine

/-! ### The map -/

/-- The reserved word indices (20_memory R55). -/
theorem regAt_eq_none_iff (a : WordIndex) : regAt a = none ↔ a = 0x07 ∨ 0x1C ≤ a.toNat := by
  revert a; decide

theorem memRead_of_regAt_none {a : WordIndex} (s : State) (h : regAt a = none) : memRead a s = 0 := by
  simp [memRead, h]

theorem memWrite_of_regAt_none {a : WordIndex} (v : Word) (s : State) (h : regAt a = none) : memWrite a v s = s := by
  simp [memWrite, h]

/-- KEYi stands at word index 8 + i (20_memory R55). -/
theorem regIndex_key (i : Fin 8) : regIndex (.key (.ofFin i)) = BitVec.ofNat 6 (8 + i) := by
  revert i; decide

/-- DIGESTi stands at word index 16 + i (20_memory R55). -/
theorem regIndex_digest (i : Fin 8) : regIndex (.digest (.ofFin i)) = BitVec.ofNat 6 (16 + i) := by
  revert i; decide

/-! ### What an instruction does at the port -/

/-- RD32 answers the register at the index and changes nothing else (20_memory R56). -/
theorem exec_rd32 (a : WordIndex) (s : State) : exec (.rd32 a) s = .next (answer (memRead a s) s) := rfl

theorem exec_rd32_regIndex (r : Reg) (s : State) : exec (.rd32 (regIndex r)) s = .next (answer (readReg r s) s) := by
  rw [exec_rd32, memRead_regIndex]

/-- WR32 writes at the index, and no read data are valid after it (20_memory R57; log 4). -/
theorem exec_wr32 (a : WordIndex) (v : Word) (s : State) :
    exec (.wr32 a v) s = .next (noAnswer (memWrite a v s)) := rfl

/-- An instruction answers a read, or is a write: WR32 at its index, a command at CMD (30_encoding R70). -/
theorem exec_reads_or_writes (i : Instr) (s : State) :
    (∃ a, i = .rd32 a ∧ exec i s = .next (answer (memRead a s) s)) ∨
    ((∀ a, i ≠ .rd32 a) ∧ ∃ a v, exec i s = .next (noAnswer (memWrite a v s))) := by
  cases i with
  | rd32 a => exact .inl ⟨a, rfl, exec_rd32 a s⟩
  | wr32 a v => exact .inr ⟨by simp, a, v, exec_wr32 a v s⟩
  | _ => exact .inr ⟨by simp, 2, _, exec_of_encode_cmd _ _ s rfl⟩

/-! ### Reads and writes at every offset -/

/-- The fields CTRL and OFFSET read as zero above their own bits (10_state R25, R31). -/
theorem ctrlWord_eq_append (s : State) : ctrlWord s = 0#30 ++ s.ctrl := BitVec.setWidth_eq_append (by decide)

theorem offset_setWidth_eq_append (s : State) : s.offset.setWidth 32 = 0#27 ++ s.offset :=
  BitVec.setWidth_eq_append (by decide)

/-- Settles O18, register by register of the map; the reserved indices read as zero. -/
theorem readReturnsTheRegister : Obligations.ReadReturnsTheRegister := by
  intro s diag reads
  have shows (r : Reg) : reads (regIndex r) (readReg r s) := exec_rd32_regIndex r s
  refine ⟨shows .id, ?ctrl, shows .cmd, shows .status, shows .ctrLo, shows .ctrHi, ?offset, fun i => ?key,
    fun i => ?digest, shows .binnedLo, shows .binnedHi, shows .codeLo, shows .codeHi, fun a ha => ?reserved⟩
  case ctrl =>
    rw [← ctrlWord_eq_append]
    exact shows .ctrl
  case offset =>
    rw [← offset_setWidth_eq_append]
    exact shows .offset
  case key =>
    rw [← regIndex_key]
    exact shows (.key (.ofFin i))
  case digest =>
    rw [← regIndex_digest]
    exact shows (.digest (.ofFin i))
  case reserved =>
    rw [← memRead_of_regAt_none s ((regAt_eq_none_iff a).2 ha)]
    exact exec_rd32 a s

/-- A write to a read-only register or to a reserved index does nothing, in every phase (20_memory R57). -/
theorem memWrite_ignored {a : WordIndex} (v : Word) (s : State)
    (h : a = 0x00 ∨ a = 0x06 ∨ a = 0x07 ∨ a = 0x1A ∨ a = 0x1B ∨ 0x1C ≤ a.toNat) : memWrite a v s = s := by
  have reserved (h : a = 0x07 ∨ 0x1C ≤ a.toNat) : memWrite a v s = s :=
    memWrite_of_regAt_none v s ((regAt_eq_none_iff a).2 h)
  rcases h with rfl | rfl | h | rfl | rfl | h
  · exact memWrite_regIndex .id v s
  · exact memWrite_regIndex .offset v s
  · exact reserved (.inl h)
  · exact memWrite_regIndex .codeLo v s
  · exact memWrite_regIndex .codeHi v s
  · exact reserved (.inr h)

/-- Settles O25: such a write leaves the state as it was, and the port shows no read data (log 4). -/
theorem ignoredWritesRaiseNothing : Obligations.IgnoredWritesRaiseNothing := by
  intro s a v h
  refine ⟨none, ?_⟩
  rw [exec_wr32, memWrite_ignored v s h]
  rfl

/-- Settles O27: a read answers, and every other instruction is a write, which does not. -/
theorem readDataIsValidAfterAReadOnly : Obligations.ReadDataIsValidAfterAReadOnly := by
  intro i s t h
  rcases exec_reads_or_writes i s with ⟨a, rfl, he⟩ | ⟨hi, a, v, he⟩
  · obtain rfl := Host.Outcome.next.inj (he.symm.trans h)
    simp
  · obtain rfl := Host.Outcome.next.inj (he.symm.trans h)
    simp [hi]

/-! ### Requests by host address -/

section
variable {r : HostRequest} {off : Nat} (k : BusWord → Result)

/-- The window from BLOCK_BASE on (20_memory R50). -/
theorem inWindow_iff : r.inWindow = true ↔ Config.blockBase ≤ r.addr ∧ r.addr < Config.blockBase + 256 :=
  decide_eq_true_iff

theorem off_of_addr (ha : r.addr = Config.blockBase + off) : r.off = off := by
  rw [HostRequest.off, ha, Nat.add_sub_cancel_left]

theorem request_of_other (hm : r.master = .other) : request r k = .refused .secondMaster := by
  simp [request, HostRequest.masterOk, hm]

theorem request_of_width_ne (hm : r.master = .host) (hw : r.width ≠ 4) : request r k = .refused .accessWidth := by
  simp [request, HostRequest.masterOk, HostRequest.widthOk, hm, hw]

/-- Of a word-wide request by the host the window and the alignment are left to check (20_memory R50,
R52). -/
theorem request_of_host_word (hm : r.master = .host) (hw : r.width = 4) :
    request r k =
      if r.inWindow then if r.off % 4 = 0 then k (encode (requestInstr r)) else .refused .misalignedOffset
      else .fault .outsideWindow := by
  simp only [request, HostRequest.masterOk, HostRequest.widthOk, HostRequest.aligned, hm, hw]
  cases r.inWindow <;> simp

theorem request_of_outside (hm : r.master = .host) (hw : r.width = 4)
    (ho : r.addr < Config.blockBase ∨ Config.blockBase + 256 ≤ r.addr) : request r k = .fault .outsideWindow := by
  rw [request_of_host_word k hm hw, if_neg fun h => ?_]
  obtain ⟨hl, hu⟩ := inWindow_iff.1 h
  omega

/-- A request inside the window is presented if its offset is a multiple of 4 (20_memory R52, R53). -/
theorem request_of_inside (hm : r.master = .host) (hw : r.width = 4) (ha : r.addr = Config.blockBase + off)
    (ho : off < 256) :
    request r k = if off % 4 = 0 then k (encode (requestInstr r)) else .refused .misalignedOffset := by
  rw [request_of_host_word k hm hw, if_pos (inWindow_iff.2 (by omega)), off_of_addr ha]

/-- The transaction of a request in the window is at offset[7:2] (20_memory R50, R51). -/
theorem requestInstr_of_addr (ha : r.addr = Config.blockBase + off) :
    requestInstr r =
      if r.write then .wr32 (BitVec.ofNat 6 (off / 4)) r.data else .rd32 (BitVec.ofNat 6 (off / 4)) := by
  rw [requestInstr, off_of_addr ha]

end

/-- Settles O29: a running block takes the request, and each clause is a case of the checks in their order (log 9). -/
theorem requestsReachTheirOffset : Obligations.RequestsReachTheirOffset := by
  intro s r rest hl hi
  have hstep : step s = request r fun b => present b { s with inbox := rest } := step_cons s (.request r) rest hl hi
  rw [hstep]
  refine ⟨request_of_other _, request_of_width_ne _, request_of_outside _, fun off hm hw ha ho => ?_⟩
  rw [request_of_inside _ hm hw ha ho]
  refine ⟨fun h => if_neg h, fun h => ?_⟩
  rw [if_pos h, present_encode, requestInstr_of_addr ha]

end Sys2Proof.Machine
end

section
/-! PROOFS. The encoding (30_encoding): the command words and the transaction words read both ways, the legal command
words, and the word at the port as the instruction it stands for. -/

namespace Sys2Proof.Machine

/-! ### Decoding what was encoded -/

/-- Settles O1, instruction by instruction. -/
theorem decodeOfEncodeIsTheInstruction : Obligations.DecodeOfEncodeIsTheInstruction := by
  intro i
  cases i with
  | nop => exact Laws.RoundTrip.nop
  | gen => exact Laws.RoundTrip.gen
  | hash => exact Laws.RoundTrip.hash
  | trunc => exact Laws.RoundTrip.trunc
  | reduce => exact Laws.RoundTrip.reduce
  | zeroize => exact Laws.RoundTrip.zeroize
  | rd32 addr => exact Laws.RoundTrip.rd32 addr
  | wr32 addr data => exact Laws.RoundTrip.wr32 addr data

/-! ### Encoding what was decoded -/

/-- The fields of a transaction word: data in 31:0, addr in 37:32, we in 38 (30_encoding R77). -/
theorem getLsbD_busBits (we : Bool) (a : WordIndex) (v : Word) (k : Nat) :
    (busBits we a v).getLsbD k =
      if k < 32 then v.getLsbD k
      else if k - 32 < 6 then a.getLsbD (k - 32)
      else (BitVec.ofBool we).getLsbD (k - 32 - 6) := by
  change (BitVec.ofBool we ++ a ++ v : BitVec (1 + 6 + 32)).getLsbD k = _
  rw [BitVec.getLsbD_append, BitVec.getLsbD_append]

/-- A transaction word is its three fields (30_encoding R77). -/
theorem busBits_fields (w : BitVec 39) :
    busBits (w.getLsbD 38) (w.extractLsb' 32 6) (w.extractLsb' 0 32) = w := by
  ext k hk
  rw [← BitVec.getLsbD_eq_getElem, ← BitVec.getLsbD_eq_getElem, getLsbD_busBits]
  by_cases data : k < 32
  · simp [data]
  by_cases addr : k - 32 < 6
  · simp [data, addr, show 32 + (k - 32) = k by omega]
  · obtain rfl : k = 38 := by omega
    simp

/-- The transaction word with its data bits cleared has the same write bit and index, and no data. -/
theorem busBits_of_clearedData (w : BitVec 39) :
    busBits (w.getLsbD 38) (w.extractLsb' 32 6) 0 = (w >>> 32) <<< 32 := by
  have we : ((w >>> 32) <<< 32).getLsbD 38 = w.getLsbD 38 := by simp
  have addr : ((w >>> 32) <<< 32).extractLsb' 32 6 = w.extractLsb' 32 6 := by
    ext k hk
    have lt : 32 + k < 39 := by omega
    simp [lt]
  have data : ((w >>> 32) <<< 32).extractLsb' 0 32 = 0 := by
    ext k hk
    simp [hk]
  rw [← busBits_fields ((w >>> 32) <<< 32), we, addr, data]

/-- The word of the transaction that a 39-bit word stands for: the data bits of a read are ignored (30_encoding R77). -/
theorem encode_busInstr (w : BitVec 39) :
    encode (busInstr w) = .bus39 (if w.getLsbD 38 then w else (w >>> 32) <<< 32) := by
  have fields := busBits_fields w
  have cleared := busBits_of_clearedData w
  unfold busInstr
  cases we : w.getLsbD 38 with
  | true =>
    rw [we] at fields
    rw [if_pos rfl, if_pos rfl, encode, fields]
  | false =>
    rw [we] at cleared
    rw [if_neg Bool.false_ne_true, if_neg Bool.false_ne_true, encode, cleared]

/-- Settles O2: a command word has one form, and a transaction word is its fields. -/
theorem encodeOfDecodeIsTheWord : Obligations.EncodeOfDecodeIsTheWord :=
  ⟨encode_of_decode_cmd32, fun w => ⟨busInstr w, rfl, encode_busInstr w⟩⟩

/-! ### The legal command words -/

/-- A command word is legal when it is NOP's or a command's whose mode admits it (30_encoding R71, R72). -/
theorem decodeCmd_ne_illegal_iff (w : Word) (diag : Bool) :
    decodeCmd w diag ≠ .illegal ↔ w = nopWord ∨ ∃ o : Op, w = o.word ∧ (diag = true ∨ o = .gen ∨ o = .zeroize) := by
  obtain ⟨word_of_op, word_of_nop⟩ := word_of_decodeCmd w diag
  constructor
  · intro legal
    cases hd : decodeCmd w diag with
    | illegal => exact absurd hd legal
    | nop => exact .inl (word_of_nop hd)
    | op o =>
      obtain rfl := word_of_op o hd
      refine .inr ⟨o, rfl, ?_⟩
      by_contra hm
      exact legal ((decodeCmd_word o diag).trans (if_neg hm))
  · rintro (rfl | ⟨o, rfl, hm⟩)
    · simp
    · simp [decodeCmd_word, hm]

theorem exists_op {p : Op → Prop} : (∃ o, p o) ↔ p .gen ∨ p .hash ∨ p .trunc ∨ p .reduce ∨ p .zeroize := by
  constructor
  · rintro ⟨o, h⟩
    cases o <;> simp [h]
  · rintro (h | h | h | h | h) <;> exact ⟨_, h⟩

/-- Settles O3: the words of the commands that each mode admits. -/
theorem legalCommandWords : Obligations.LegalCommandWords := by
  intro w
  rw [decodeCmd_ne_illegal_iff, decodeCmd_ne_illegal_iff, exists_op, exists_op]
  simp [nopWord, Op.word]

/-- Settles O4, word by word. -/
theorem wordsOfTheSpecDecode : Obligations.WordsOfTheSpecDecode := by
  unfold Obligations.WordsOfTheSpecDecode
  decide

/-! ### The word at the port -/

/-- A WR32 to CMD is the command word it carries (30_encoding R70). -/
theorem present_cmd32_eq_exec_wr32 (w : Word) (s : State) : present (.cmd32 w) s = exec (.wr32 2 w) s :=
  (present_cmd32 w s).trans (exec_wr32 2 w s).symm

/-- An encoded word at the port is the instruction it stands for. -/
theorem present_of_decode {b : BusWord} {i : Instr} (s : State) (h : decode b = .ok i) : present b s = exec i s := by
  cases b with
  | cmd32 w => simp only [present, h]
  | bus39 w =>
    obtain rfl : busInstr w = i := Except.ok.inj h
    rfl

/-- Settles O15: both are the write of the command's word to CMD. -/
theorem writeToCmdIsTheCommand : Obligations.WriteToCmdIsTheCommand := by
  intro s i w h
  exact (exec_wr32 2 w s).trans (exec_of_encode_cmd i w s h).symm

/-- The next step of a running block presents the word at the head of the inputs (log 3). -/
theorem step_port {s : State} {b : BusWord} {rest : List Input} (hl : Live s) (hi : s.inbox = .port b :: rest) :
    step s = present b { s with inbox := rest } :=
  step_cons s (.port b) rest hl hi

/-- Bits that are an instruction are an encoded word, and the word decodes to it. -/
theorem busWord_of_decodeTableWord {nbits w : Nat} {i : Instr} (h : decodeTableWord nbits w = some i) :
    ∃ b, busWord nbits w = .ok b ∧ decode b = .ok i := by
  unfold decodeTableWord decodeBits at h
  cases hb : busWord nbits w with
  | error e => simp [hb] at h
  | ok b =>
    refine ⟨b, rfl, ?_⟩
    cases hd : decode b with
    | error e => simp [hb, hd] at h
    | ok j =>
      simp only [hb, hd, Option.some.injEq] at h
      rw [h]

/-- What `withFetchWord` of an encoded word sets: the head of the inputs, the pin and the history (log 6). -/
theorem withFetchWord_of_busWord {nbits w : Nat} {b : BusWord} (s : State) (h : busWord nbits w = .ok b) :
    s.withFetchWord nbits w = { s with inbox := .port b :: s.inbox, rstN := true, everReset := true } := by
  simp only [State.withFetchWord, h]

/-- Settles O5: a step presents the word at the head of the inputs, and `withFetchWord` puts one there. -/
theorem stepRunsTheDecodedInstruction : Obligations.StepRunsTheDecodedInstruction := by
  refine ⟨fun s b i rest hl hi hd => ?decoded, fun s w e rest hl hi _ => ?noInstruction, fun s nbits w i h => ?fetched⟩
  case decoded => rw [step_port hl hi, present_of_decode _ hd]
  case noInstruction => rw [step_port hl hi, present_cmd32_eq_exec_wr32]
  case fetched =>
    obtain ⟨b, hb, hd⟩ := busWord_of_decodeTableWord h
    rw [withFetchWord_of_busWord s hb, step_port ⟨rfl, rfl⟩ rfl, present_of_decode _ hd]

end Sys2Proof.Machine
end

section
/-! PROOFS. Stage 1 (40_keyed_hash): the message block of a counter. -/

namespace Sys2Proof.Machine

/-- A byte of the counter's half at bit `n` is the counter's byte at that place. -/
theorem extractLsb'_byte_of_half (c : Quad) (n : Nat) {j : Nat} (hj : j + 8 ≤ 32) :
    (c.extractLsb' n 32).extractLsb' j 8 = c.extractLsb' (n + j) 8 := by
  ext k hk
  have inHalf : j + k < 32 := by omega
  simp [inHalf, Nat.add_assoc]

/-- The byte-swapped half at bit `n` is the half's four bytes, most significant first, read little-endian
(40_keyed_hash R98). -/
theorem bswap32_half (c : Quad) (n : Nat) :
    bswap32 (c.extractLsb' n 32) =
      le32 (c.extractLsb' (n + 24) 8) (c.extractLsb' (n + 16) 8) (c.extractLsb' (n + 8) 8) (c.extractLsb' n 8) := by
  simp [bswap32, le32, extractLsb'_byte_of_half]

/-- Settles O42: bytes 0 to 3 of `be64` are the high half's and bytes 4 to 7 the low half's, each most significant byte
first. -/
theorem messageWordsAreSwappedCounterHalves : Obligations.MessageWordsAreSwappedCounterHalves := by
  intro c
  simp [Blake3.block, be64, bswap32_half c 32, bswap32_half c 0]

end Sys2Proof.Machine
end

section
/-! PROOFS. Stages 2 and 3 (41_truncate_reduce): the window and its bytes, the range of the binned value and of the code,
and the display of a code. -/

namespace Sys2Proof.Machine

/-! ### The window -/

/-- Settles O43: the offset, the window and the mask are those of `truncOffset_toNat` and `selected_eq`, and
`assemble_byte` puts byte k of the window at its place. -/
theorem truncationSelectsTheWrappedWindow : Obligations.TruncationSelectsTheWrappedWindow := by
  intro d
  refine ⟨truncOffset_toNat d, fun k hk => ?_⟩
  rw [← truncOffset_toNat, truncate, assemble_byte d k hk, selected_eq]

/-! ### The range of the binned value -/

/-- Byte m of a little-endian word is byte m of the four. -/
theorem extractLsb'_le32 (b0 b1 b2 b3 : Byte) (m : Nat) (hm : m < 4) :
    (le32 b0 b1 b2 b3).extractLsb' (8 * m) 8 = #v[b0, b1, b2, b3][m] := by
  ext n hn
  rw [BitVec.getElem_extractLsb']
  change (b3 ++ b2 ++ b1 ++ b0 : BitVec (8 + 8 + 8 + 8)).getLsbD _ = _
  simp only [BitVec.getLsbD_append]
  rw [← BitVec.getLsbD_eq_getElem]
  interval_cases m <;> interval_cases n <;> rfl

/-- Byte m of word i of 32 bytes is byte 4i + m of them. -/
theorem extractLsb'_packWord (b : Vector Byte 32) (i : Fin 8) (m : Nat) (hm : m < 4) :
    (packWord b i).extractLsb' (8 * m) 8 = b[4 * i.val + m] := by
  rw [packWord, extractLsb'_le32 _ _ _ _ m hm]
  interval_cases m <;> rfl

/-- Byte j of the register that holds 32 bytes is the j-th of them (10_state R29, R30). -/
theorem byteOf_wideOfBytes (b : Vector Byte 32) (j : Nat) (hj : j < 32) : byteOf (wideOfBytes b) j = b[j] := by
  have word : (BitVec.ofNat 3 (j / 4)).toNat = j / 4 := Nat.mod_eq_of_lt (by omega)
  have inWord : j % 4 < 4 := by omega
  have lane := byteOf_eq_lane (wideOfBytes b) (BitVec.ofNat 3 (j / 4)) (j % 4) inWord
  rw [wordOf_wideOfBytes, extractLsb'_packWord b _ _ inWord] at lane
  simpa only [BitVec.val_toFin, word, Nat.div_add_mod] using lane

/-- Byte k of `be64`, most significant first (00_scope R17). -/
theorem getElem_be64 (c : Quad) (k : Nat) (hk : k < 8) : (be64 c)[k] = c.extractLsb' (8 * (7 - k)) 8 := by
  interval_cases k <;> rfl

/-- A 64-bit value is its eight bytes. -/
theorem quad_ext_bytes (a b : Quad)
    (h : ∀ k < 8, a.extractLsb' (8 * (7 - k)) 8 = b.extractLsb' (8 * (7 - k)) 8) : a = b := by
  ext n hn
  have bit := congrArg (fun x => x.getLsbD (n % 8)) (h (7 - n / 8) (by omega))
  have place : 8 * (7 - (7 - n / 8)) + n % 8 = n := by omega
  have inByte : n % 8 < 8 := by omega
  simpa [place, inByte, BitVec.getLsbD_eq_getElem, hn] using bit

/-- The mask of the first byte leaves a top byte below 0x80 as it is (41_truncate_reduce R114). -/
theorem topByte_and_mask (b : Quad) (h : b.toNat ≤ 2 ^ 63 - 1) : b.extractLsb' 56 8 &&& 0x7F = b.extractLsb' 56 8 := by
  apply BitVec.eq_of_toNat_eq
  rw [BitVec.toNat_and, BitVec.extractLsb'_toNat]
  change _ &&& (2 ^ 7 - 1) = _
  rw [Nat.and_two_pow_sub_one_eq_mod, Nat.shiftRight_eq_div_pow]
  omega

/-- A digest whose window is the eight bytes of `b`, most significant first: they stand at index 0, and byte 31 is 0. -/
def digestOfWindow (b : Quad) : Wide := wideOfBytes (be64 b ++ (Vector.replicate 24 0 : Vector Byte 24))

/-- The last byte of `digestOfWindow b` is 0, so its window starts at index 0. -/
theorem truncOffset_digestOfWindow (b : Quad) : (truncOffset (digestOfWindow b)).toNat = 0 := by
  rw [truncOffset_toNat, digestOfWindow, byteOf_wideOfBytes _ 31 (by decide), Vector.getElem_append_right _ (by decide),
    Vector.getElem_replicate]
  rfl

/-- The first eight bytes of `digestOfWindow b` are those of `b`, most significant first. -/
theorem byteOf_digestOfWindow (b : Quad) (k : Nat) (hk : k < 8) :
    byteOf (digestOfWindow b) k = b.extractLsb' (8 * (7 - k)) 8 := by
  rw [digestOfWindow, byteOf_wideOfBytes _ k (by omega), Vector.getElem_append_left hk, getElem_be64]

/-- Every value below 2^63 is the binned value of a digest (41_truncate_reduce R116). -/
theorem assemble_digestOfWindow (b : Quad) (h : b.toNat ≤ 2 ^ 63 - 1) : assemble (digestOfWindow b) = b := by
  refine quad_ext_bytes _ _ fun k hk => ?_
  rw [assemble_byte _ k hk, selected_eq, truncOffset_digestOfWindow]
  split
  · next isFirst =>
    subst isFirst
    rw [byteOf_digestOfWindow b 0 hk]
    exact topByte_and_mask b h
  · next =>
    rw [Nat.zero_add, Nat.mod_eq_of_lt (by omega), byteOf_digestOfWindow b k hk]

/-- Settles O44: the mask clears bit 63, and `digestOfWindow` reaches every value below 2^63. -/
theorem binnedRange : Obligations.BinnedRange :=
  ⟨fun d => ⟨assemble_top d, Nat.le_sub_one_of_lt (assemble_lt d)⟩,
    fun b h => ⟨digestOfWindow b, assemble_digestOfWindow b h⟩⟩

/-! ### The code -/

/-- Bits of a value below `2 ^ n` are zero from bit n up. -/
theorem extractLsb'_eq_zero_of_lt {w : Nat} (x : BitVec w) (n len : Nat) (h : x.toNat < 2 ^ n) :
    x.extractLsb' n len = 0 := by
  apply BitVec.eq_of_toNat_eq
  rw [BitVec.extractLsb'_toNat, Nat.shiftRight_eq_div_pow, Nat.div_eq_of_lt h]
  simp

theorem hi_toNat (q : Quad) : (hi q).toNat = q.toNat / 2 ^ 32 := by
  have := q.isLt
  rw [hi, BitVec.extractLsb'_toNat, Nat.shiftRight_eq_div_pow]
  omega

/-- Settles O45: the remainder is exact and below 10^11, which is below 2^37 and below 0x18 · 2^32. -/
theorem reductionRange : Obligations.ReductionRange := by
  intro b
  have below := reduce_lt b
  refine ⟨reduce_toNat b, extractLsb'_eq_zero_of_lt _ 37 27 (by omega), ?_⟩
  rw [hi_toNat]
  omega

/-! ### The display -/

/-- The last `n` decimal digits of `m`, most significant first. -/
def decimalDigits (n m : Nat) : List Char := (List.range n).map fun k => Nat.digitChar (m / 10 ^ (n - 1 - k) % 10)

/-- The display of a code is its last eleven digits (41_truncate_reduce R120). -/
theorem dec11_eq_decimalDigits (code : Quad) : dec11 code = decimalDigits 11 code.toNat := rfl

theorem decimalDigits_succ (n m : Nat) :
    decimalDigits (n + 1) m = Nat.digitChar (m / 10 ^ n % 10) :: decimalDigits n m := by
  simp [decimalDigits, List.range_succ_eq_map, Nat.sub_sub, Nat.add_comm 1]

theorem digitChar_isDecimal : ∀ v < 10, '0' ≤ Nat.digitChar v ∧ Nat.digitChar v ≤ '9' := by decide

/-- A decimal digit reads as its value. -/
theorem digitChar_value : ∀ v < 10, (Nat.digitChar v).toNat - 48 = v := by decide

theorem length_decimalDigits (n m : Nat) : (decimalDigits n m).length = n := by simp [decimalDigits]

theorem mem_decimalDigits_isDecimal {n m : Nat} {x : Char} (h : x ∈ decimalDigits n m) : '0' ≤ x ∧ x ≤ '9' := by
  obtain ⟨k, -, rfl⟩ := List.mem_map.mp h
  exact digitChar_isDecimal _ (Nat.mod_lt _ (by decide))

/-- Reading the last `n` digits of `m` after a number `acc` appends them to it. -/
theorem foldl_decimalDigits (n m acc : Nat) :
    (decimalDigits n m).foldl (fun a x => 10 * a + (x.toNat - 48)) acc = 10 ^ n * acc + m % 10 ^ n := by
  induction n generalizing acc with
  | zero => simp [decimalDigits, Nat.mod_one]
  | succ n ih =>
    rw [decimalDigits_succ, List.foldl_cons, digitChar_value _ (Nat.mod_lt _ (by decide)), ih, Nat.mod_pow_succ]
    ring

/-- Settles O48: the display is the code's last eleven digits, and a code below 10^11 has no others. -/
theorem displayHasElevenDigits : Obligations.DisplayHasElevenDigits := by
  intro code below
  rw [dec11_eq_decimalDigits]
  refine ⟨length_decimalDigits 11 _, fun x hx => mem_decimalDigits_isDecimal hx, ?_⟩
  rw [foldl_decimalDigits, Nat.mod_eq_of_lt below, Nat.mul_zero, Nat.zero_add]

end Sys2Proof.Machine
end

section
/-! PROOFS. The commands and the register writes (42_commands): what a write does in each phase, acceptance and completion
of each command, and a command from its acceptance to its completion. -/

namespace Sys2Proof.Machine

/-! ### A write, by phase -/

/-- What a write makes of the state is what WR32 answers, but for the read data (log 4). -/
theorem gives_wr32 {a : WordIndex} {v : Word} {s t : State} (h : memWrite a v s = t) : Gives (exec (.wr32 a v) s) t :=
  ⟨none, by rw [exec_wr32, h]; rfl⟩

/-- While IDLE a write behind the BUSY check takes effect (42_commands R152). -/
theorem gives_wr32_of_idle (r : Reg) {v : Word} {s : State} {f : State → State} (hr : writeReg r v s = whileIdle f s)
    (hp : s.phase = .idle) : Gives (exec (.wr32 (regIndex r) v) s) (f s) :=
  gives_wr32 (by rw [memWrite_regIndex, hr, whileIdle_of_idle f s hp])

/-- The registers whose write is refused while BUSY (42_commands R152). -/
def refusedWhileBusy : Reg → Bool
  | .id | .status | .offset | .codeLo | .codeHi => false
  | .ctrl | .cmd | .ctrLo | .ctrHi | .key _ | .digest _ | .binnedLo | .binnedHi => true

theorem writeReg_of_busy {r : Reg} (hr : refusedWhileBusy r = true) (v : Word) {s : State} (hp : s.phase = .busy) :
    writeReg r v s = raiseErrBusy s := by
  cases r with
  | id | status | offset | codeLo | codeHi => cases hr
  | _ => exact whileIdle_of_busy _ s hp

/-- The word indices of these registers (20_memory R55). -/
theorem exists_refusedWhileBusy {a : WordIndex}
    (ha : a = 0x01 ∨ a = 0x02 ∨ a = 0x04 ∨ a = 0x05 ∨ (8 ≤ a.toNat ∧ a.toNat ≤ 0x19)) :
    ∃ r, a = regIndex r ∧ refusedWhileBusy r = true := by
  have refused : (regAt a).any refusedWhileBusy = true := by revert a; decide
  obtain ⟨r, hr, hb⟩ := (Option.any_eq_true _ _).1 refused
  exact ⟨r, regIndex_of_regAt a r hr, hb⟩

theorem memWrite_of_busy {a : WordIndex}
    (ha : a = 0x01 ∨ a = 0x02 ∨ a = 0x04 ∨ a = 0x05 ∨ (8 ≤ a.toNat ∧ a.toNat ≤ 0x19)) (v : Word) {s : State}
    (hp : s.phase = .busy) : memWrite a v s = raiseErrBusy s := by
  obtain ⟨r, rfl, hr⟩ := exists_refusedWhileBusy ha
  rw [memWrite_regIndex, writeReg_of_busy hr v hp]

/-- Settles O26: the refused indices, STATUS, and the indices whose writes are ignored in every phase. -/
theorem writesWhileBusySetErrBusyOnly : Obligations.WritesWhileBusySetErrBusyOnly := by
  intro s a v hp
  apply gives_wr32
  split_ifs with refused status
  · exact memWrite_of_busy refused v hp
  · rw [status]
    exact memWrite_regIndex .status v s
  · apply memWrite_ignored
    revert a; decide

/-! ### Register writes while IDLE -/

/-- Settles O20: the write of STATUS has no BUSY check. -/
theorem writeStatusClearsChosenFlags : Obligations.WriteStatusClearsChosenFlags :=
  fun s v => gives_wr32 (memWrite_regIndex .status v s)

/-- Settles O19, by the one update a write of CTRL is. -/
theorem writeCtrlStoresTwoBits : Obligations.WriteCtrlStoresTwoBits := by
  intro s v hp
  rw [← writeCtrl_eq]
  exact gives_wr32_of_idle .ctrl rfl hp

/-- Settles O21, half by half. -/
theorem writeCounterSetsOneHalf : Obligations.WriteCounterSetsOneHalf :=
  fun _ v hp => ⟨gives_wr32_of_idle .ctrLo (f := writeCtrLo v) rfl hp, gives_wr32_of_idle .ctrHi (f := writeCtrHi v) rfl hp⟩

/-- A write of a half of BINNED as one update (42_commands R157). -/
theorem writeBinnedLo_eq (v : Word) (s : State) :
    writeBinnedLo v s = { s with binned := if s.diagEn then quad (hi s.binned) v else s.binned } := by
  unfold writeBinnedLo; split <;> rfl

theorem writeBinnedHi_eq (v : Word) (s : State) :
    writeBinnedHi v s = { s with binned := if s.diagEn then quad v (lo s.binned) else s.binned } := by
  unfold writeBinnedHi; split <;> rfl

/-- Settles O24, half by half. -/
theorem writeBinnedInDiagnosticModeOnly : Obligations.WriteBinnedInDiagnosticModeOnly := by
  intro s v hp
  have low := gives_wr32_of_idle .binnedLo (f := writeBinnedLo v) rfl hp
  have high := gives_wr32_of_idle .binnedHi (f := writeBinnedHi v) rfl hp
  rw [writeBinnedLo_eq] at low
  rw [writeBinnedHi_eq] at high
  exact ⟨low, high⟩

/-- The words of a wide register after a write of word i. -/
theorem extractLsb'_setWord (w : Wide) (i j : Fin 8) (v : Word) :
    (setWord w (.ofFin i) v).extractLsb' (32 * j) 32 = if j = i then v else w.extractLsb' (32 * j) 32 := by
  have word := wordOf_setWord w (.ofFin i) (.ofFin j) v
  simp only [BitVec.ofFin.injEq] at word
  exact word

/-- The bytes of word i after a write of it (10_state R29, R30). -/
theorem byteOf_setWord (w : Wide) (i : Fin 8) (m : Fin 4) (v : Word) :
    byteOf (setWord w (.ofFin i) v) (4 * i + m) = v.extractLsb' (8 * m) 8 := by
  have lane := byteOf_eq_lane (setWord w (.ofFin i) v) (.ofFin i) m m.isLt
  rwa [wordOf_setWord, if_pos rfl] at lane

/-- Settles O22, by the words and the bytes of the new KEY. -/
theorem writeKeySetsOneWord : Obligations.WriteKeySetsOneWord := by
  intro s i v hp
  rw [← regIndex_key]
  exact ⟨writeKey (.ofFin i) v s, gives_wr32_of_idle (.key _) rfl hp, rfl, fun j => extractLsb'_setWord s.key i j v,
    fun m => byteOf_setWord s.key i m v⟩

/-- Settles O23: the write is `setWord` in diagnostic mode, and nothing in normal mode. -/
theorem writeDigestInDiagnosticModeOnly : Obligations.WriteDigestInDiagnosticModeOnly := by
  intro s i v hp
  have written := gives_wr32_of_idle (.digest (.ofFin i)) (f := writeDigest (.ofFin i) v) rfl hp
  rw [regIndex_digest, writeDigest] at written
  cases hd : s.diagEn with
  | false =>
    rw [hd, if_neg Bool.false_ne_true] at written
    exact ⟨s, written, rfl, fun _ => rfl, nofun⟩
  | true =>
    rw [hd, if_pos rfl] at written
    exact ⟨_, written, rfl, nofun, fun _ => ⟨fun j => extractLsb'_setWord s.digest i j v,
      fun m => byteOf_setWord s.digest i m v⟩⟩

/-! ### A word written to CMD -/

theorem memWrite_cmd_of_idle (w : Word) {s : State} (hp : s.phase = .idle) : memWrite 2 w s = dispatchCmd w s :=
  (memWrite_regIndex .cmd w s).trans (whileIdle_of_idle _ s hp)

/-- Settles O9: NOP is the write of its word to CMD, which decodes to no operation. -/
theorem nopChangesNoRegister : Obligations.NopChangesNoRegister := by
  intro s
  rw [exec_of_encode_cmd .nop nopWord s rfl, ← exec_wr32]
  apply gives_wr32
  split_ifs with hp
  · exact memWrite_of_busy (by decide) nopWord hp
  · rw [memWrite_cmd_of_idle nopWord ((idle_or_busy s).resolve_right hp), dispatchCmd, decodeCmd_nopWord]

/-- Each of the three causes makes a command word illegal (60_exceptions R171). -/
theorem decodeCmd_eq_illegal {w : Word} {diag : Bool}
    (cause : w.toNat / 16 ≠ 0 ∨ 6 ≤ w.toNat % 16 ∨
      ((w.toNat % 16 = 2 ∨ w.toNat % 16 = 3 ∨ w.toNat % 16 = 4) ∧ diag = false)) : decodeCmd w diag = .illegal := by
  by_contra legal
  rcases (decodeCmd_ne_illegal_iff w diag).1 legal with rfl | ⟨o, rfl, hm⟩
  · simp [nopWord] at cause
  · cases o <;> simp_all [Op.word]

/-- Settles O16, by the decoder: the write of an illegal word to CMD is ERR_CMD alone. -/
theorem illegalWordSetsErrCmdOnly : Obligations.IllegalWordSetsErrCmdOnly := by
  intro s w hp cause
  apply gives_wr32
  rw [memWrite_cmd_of_idle w hp, dispatchCmd, decodeCmd_eq_illegal cause]
  rfl

/-! ### Acceptance and completion -/

section
variable (o : Op) {s : State}

/-- The acceptance of a command, its refusal in normal mode and its refusal while BUSY (42_commands R132, R150, R152). -/
theorem gives_accept (hp : s.phase = .idle) (hm : s.diagEn = true ∨ o = .gen ∨ o = .zeroize) :
    Gives (exec o.instr s) (accept o s) :=
  ⟨none, exec_op_of_idle o s hp hm⟩

theorem gives_raiseErrCmd (hp : s.phase = .idle) (hd : s.diagEn = false) (hs : o = .hash ∨ o = .trunc ∨ o = .reduce) :
    Gives (exec o.instr s) (raiseErrCmd s) :=
  ⟨none, exec_op_of_idle_illegal o s hp (by rcases hs with rfl | rfl | rfl <;> simp [hd])⟩

theorem gives_raiseErrBusy (hp : s.phase = .busy) : Gives (exec o.instr s) (raiseErrBusy s) :=
  ⟨none, exec_op_of_busy o s hp⟩

/-- The effect of a command does not read the inputs, the read data, `phase` or DONE (42_commands R134 to R138). -/
theorem finish_effect_inbox_rdata (s : State) (l : List Input) (d : Option Word) :
    finish (effect o { s with inbox := l, rdata := d }) =
      { effect o s with inbox := l, rdata := d, phase := .idle, done := true } := by
  cases o with
  | gen => simp only [effect, completeGen_eq]; rfl
  | _ => rfl

/-- The completion of the pending command at the engine's turn, listed or not (42_commands R141; log 3). -/
theorem step_completes (hl : Live s) (hp : s.phase = .busy) (ho : s.pendOp = o) (he : EngineNext s) :
    Gives (step s) { effect o s with inbox := s.inbox.tail, phase := .idle, done := true } := by
  have turn (l : List Input) (d : Option Word) :
      engineTurn { s with inbox := l, rdata := d } =
        { effect o s with inbox := l, rdata := d, phase := .idle, done := true } := by
    subst ho
    exact (engineTurn_of_busy { s with inbox := l, rdata := d } hp).trans (finish_effect_inbox_rdata s.pendOp s l d)
  cases hi : s.inbox with
  | nil =>
    have quiet := step_nil s hl hi
    rw [noAnswer, turn, hi] at quiet
    exact ⟨none, quiet⟩
  | cons e rest =>
    obtain rfl : e = .engine := by simpa [EngineNext, hi] using he
    exact ⟨s.rdata, (step_cons s .engine rest hl hi).trans (congrArg _ (turn rest s.rdata))⟩

end

/-- Settles O10, by acceptance, the refusal while BUSY and the completion of a command; GEN's effect is one update. -/
theorem genComputesTheCode : Obligations.GenComputesTheCode := by
  refine ⟨fun s hp => gives_accept .gen hp (.inr (.inl rfl)), fun s hp => gives_raiseErrBusy .gen hp,
    fun s hl hp ho he => ?_⟩
  have completed := step_completes .gen hl hp ho he
  rw [effect, completeGen_eq] at completed
  exact completed

/-- Settles O11, by acceptance, the two refusals and the completion of a command. -/
theorem hashWritesTheDigest : Obligations.HashWritesTheDigest :=
  ⟨fun _ hp hd => gives_accept .hash hp (.inl hd), fun _ hp hd => gives_raiseErrCmd .hash hp hd (.inl rfl),
    fun _ hp => gives_raiseErrBusy .hash hp, fun _ hl hp ho he => step_completes .hash hl hp ho he⟩

/-- Settles O12, as O11. -/
theorem truncWritesOffsetAndBinned : Obligations.TruncWritesOffsetAndBinned :=
  ⟨fun _ hp hd => gives_accept .trunc hp (.inl hd), fun _ hp hd => gives_raiseErrCmd .trunc hp hd (.inr (.inl rfl)),
    fun _ hp => gives_raiseErrBusy .trunc hp, fun _ hl hp ho he => step_completes .trunc hl hp ho he⟩

/-- The reduced value is the remainder (41_truncate_reduce R117). -/
theorem reduce_eq_ofNat (b : Quad) : reduce b = BitVec.ofNat 64 (b.toNat % 10 ^ 11) := by
  rw [← reduce_toNat, BitVec.ofNat_toNat, BitVec.setWidth_eq]

/-- Settles O13, as O11, with the reduced value as the remainder. -/
theorem reduceWritesTheCode : Obligations.ReduceWritesTheCode := by
  refine ⟨fun _ hp hd => gives_accept .reduce hp (.inl hd),
    fun _ hp hd => gives_raiseErrCmd .reduce hp hd (.inr (.inr rfl)), fun _ hp => gives_raiseErrBusy .reduce hp,
    fun s hl hp ho he => ?_⟩
  rw [← reduce_eq_ofNat]
  exact step_completes .reduce hl hp ho he

/-- Settles O14, as O10: ZEROIZE is accepted in every mode. -/
theorem zeroizeClearsTheDataRegisters : Obligations.ZeroizeClearsTheDataRegisters :=
  ⟨fun _ hp => gives_accept .zeroize hp (.inr (.inr rfl)), fun _ hp => gives_raiseErrBusy .zeroize hp,
    fun _ hl hp ho he => step_completes .zeroize hl hp ho he⟩

/-! ### A pending command -/

/-- A write while BUSY changes the three flags alone (42_commands R152, R158). -/
theorem WriteOutcome.flags_of_busy {a : WordIndex} {v : Word} {s u : State} (h : WriteOutcome a v s u)
    (hp : s.phase = .busy) :
    ∃ done errCmd errBusy, u = { s with done := done, errCmd := errCmd, errBusy := errBusy } := by
  have busy : s.phase ≠ .idle := by simp [hp]
  cases h with
  | ignored | status | refused => exact ⟨_, _, _, rfl⟩
  | ctrl idle | illegal idle | accepted idle | counter idle | key idle | digest idle | binned idle =>
    exact absurd idle busy

/-- Settles O51: of the steps that leave the block busy, a write alone changes registers, and only the flags; what sets
them is O34. -/
theorem busyBlockKeepsItsRegisters : Obligations.BusyBlockKeepsItsRegisters := by
  intro s t hl hp h ht
  obtain ⟨errCmd_set, -, done_set⟩ := flagsAreSetOnlyAsTheSpecSays s t hl h
  have busy {u : State} (hu : u.phase = .busy) : u.phase ≠ .idle := by simp [hu]
  refine ⟨?frame, fun hs => ?done, fun hs => ?errCmd⟩
  case done => exact eq_false_of_ne_true fun set => busy ht (done_set hs set).2
  case errCmd => exact eq_false_of_ne_true fun set => busy hp (errCmd_set hs set).1
  case frame =>
    have completed (u : State) (hu : u.phase = .busy) (htu : t = engineTurn u) : False := by
      rw [htu, engineTurn_of_busy u hu] at ht
      cases ht
    rcases step_cases s t hl h with ⟨e, rest, a, v, hi, -, rfl⟩ | ⟨e, rest, a, hi, -, -, rfl⟩ | ⟨rest, hi, rfl⟩ |
      ⟨rest, hi, he⟩ | ⟨rest, hi, rfl⟩ | ⟨rest, hi, rfl⟩ | ⟨hi, he⟩
    · obtain ⟨done, errCmd, errBusy, hw⟩ := (memWrite_outcome a v s).flags_of_busy hp
      rw [memWrite_inbox, hw, hi]
      rfl
    · rw [hi]; rfl
    · rw [hi]; rfl
    · exact (completed { s with inbox := rest } hp he).elim
    · rw [hi]; rfl
    · cases ht
    · exact (completed (noAnswer s) hp he).elim

/-- An input that presents a write does that write. -/
theorem running_write {e : Input} {a : WordIndex} {v : Word} (s : State) (h : writeOf e = some (a, v)) :
    running e s = .next (noAnswer (memWrite a v s)) := by
  cases e with
  | port b => rw [running, present_eq, h]
  | request r =>
    rw [writeOf] at h
    split_ifs at h with hr
    obtain ⟨rfl, rfl⟩ := Prod.mk.inj (Option.some.inj h)
    rw [Bool.and_eq_true] at hr
    rw [running, request_of_wf r _ hr.1, present_request, if_pos hr.2]
  | idle | engine | rst => cases h

/-- No lawful input but the engine's turn ends a pending command (42_commands R140). -/
theorem step_stays_busy {s : State} {e : Input} {rest : List Input} (hl : Live s) (hp : s.phase = .busy)
    (hi : s.inbox = e :: rest) (lawful : e.lawful = true) (other : e ≠ .engine) :
    ∃ t, step s = .next t ∧ t.phase = .busy := by
  rw [step_cons s e rest hl hi]
  cases hw : writeOf e with
  | none =>
    obtain ⟨d, hd⟩ := running_readsOnly e { s with inbox := rest } hl ⟨lawful, hw, other⟩
    exact ⟨_, hd, hp⟩
  | some write =>
    obtain ⟨a, v⟩ := write
    obtain ⟨done, errCmd, errBusy, hu⟩ := (memWrite_outcome a v { s with inbox := rest }).flags_of_busy hp
    exact ⟨_, running_write _ hw, by rw [hu]; exact hp⟩

/-- Two states agree on the registers a command's effect reads and writes. -/
structure SameData (s t : State) : Prop where
  ctrl : t.ctrl = s.ctrl
  key : t.key = s.key
  counter : t.counter = s.counter
  digest : t.digest = s.digest
  offset : t.offset = s.offset
  binned : t.binned = s.binned
  code : t.code = s.code

namespace SameData

variable {s t u : State}

theorem refl (s : State) : SameData s s := ⟨rfl, rfl, rfl, rfl, rfl, rfl, rfl⟩

theorem trans (h : SameData s t) (h' : SameData t u) : SameData s u :=
  ⟨h'.ctrl.trans h.ctrl, h'.key.trans h.key, h'.counter.trans h.counter, h'.digest.trans h.digest,
    h'.offset.trans h.offset, h'.binned.trans h.binned, h'.code.trans h.code⟩

theorem diagEn (h : SameData s t) : t.diagEn = s.diagEn := by rw [State.diagEn, h.ctrl, State.diagEn]

/-- The effect of a command reads these registers alone (42_commands R134 to R138). -/
theorem effect_congr (o : Op) (h : SameData s t) : SameData (effect o s) (effect o t) := by
  obtain ⟨ctrl, key, counter, digest, offset, binned, code⟩ := id h
  cases o with
  | gen => constructor <;> simp [effect, completeGen_eq, h.diagEn, *]
  | hash => constructor <;> simp [effect, completeHash, *]
  | trunc => constructor <;> simp [effect, completeTrunc, *]
  | reduce => constructor <;> simp [effect, completeReduce, *]
  | zeroize => constructor <;> simp [effect, completeZeroize, *]

end SameData

/-- A running idle block whose last command `o`, begun in `s`, has completed, with the inputs `rest` to come. -/
structure CommandDone (o : Op) (s : State) (rest : List Input) (t : State) : Prop where
  live : Live t
  idle : t.phase = .idle
  done : t.done = true
  inbox : t.inbox = rest
  data : SameData (effect o s) t

/-- The engine's turn completes the pending command (42_commands R141). -/
theorem commandDone_of_engineNext {s : State} (hl : Live s) (hp : s.phase = .busy) (he : EngineNext s) :
    ∃ t, step s = .next t ∧ CommandDone s.pendOp s s.inbox.tail t := by
  obtain ⟨d, h⟩ := step_completes s.pendOp hl hp rfl he
  obtain ⟨-, -, -, -, -, -, -, rstN, everReset, -, -⟩ := effect_frame s.pendOp s
  exact ⟨_, h, ⟨rstN.trans hl.1, everReset.trans hl.2⟩, rfl, rfl, rfl, ⟨rfl, rfl, rfl, rfl, rfl, rfl, rfl⟩⟩

/-- The listed inputs bring the engine's turn, or end, with the command still pending and its operands as they were
(42_commands R141; log 3). -/
theorem run_to_engineNext {s : State} (hl : Live s) (hp : s.phase = .busy)
    (lawful : ∀ e ∈ s.inbox, e.lawful = true) :
    ∃ k t, k ≤ s.inbox.length ∧ core.run k s = .next t ∧ Live t ∧ t.phase = .busy ∧ EngineNext t ∧
      t.pendOp = s.pendOp ∧ SameData s t := by
  induction hi : s.inbox generalizing s with
  | nil => exact ⟨0, s, Nat.le_refl _, rfl, hl, hp, .inr (by rw [hi]; rfl), rfl, .refl s⟩
  | cons e rest ih =>
    rw [hi] at lawful
    by_cases he : e = .engine
    · exact ⟨0, s, Nat.zero_le _, rfl, hl, hp, .inl (by rw [hi, he]; rfl), rfl, .refl s⟩
    · obtain ⟨t, ht, htp⟩ := step_stays_busy hl hp hi (lawful e List.mem_cons_self) he
      obtain ⟨frame, -⟩ := busyBlockKeepsItsRegisters s t hl hp ht htp
      have inbox : t.inbox = rest := by rw [frame, hi]; rfl
      obtain ⟨k, u, hk, hu, ul, up, ue, pendOp, data⟩ := ih (s := t) (by rw [frame]; exact hl) htp
        (by rw [inbox]; exact fun e' he' => lawful e' (List.mem_cons_of_mem e he')) inbox
      have same : SameData s t := by rw [frame]; exact ⟨rfl, rfl, rfl, rfl, rfl, rfl, rfl⟩
      exact ⟨k + 1, u, Nat.succ_le_succ hk, (run_succ k s t ht).trans hu, ul, up, ue,
        pendOp.trans (by rw [frame]), same.trans data⟩

/-- Bit 0 of STATUS is BUSY (20_memory R56). -/
theorem statusWord_getLsbD_zero (s : State) : (statusWord s).getLsbD 0 = s.busy := by
  change (0#28 ++ BitVec.ofBool s.errBusy ++ BitVec.ofBool s.errCmd ++ BitVec.ofBool s.done ++ BitVec.ofBool s.busy :
    BitVec (28 + 1 + 1 + 1 + 1)).getLsbD 0 = s.busy
  rw [BitVec.getLsbD_append]
  simp

/-- The poll of `wait` ends on an idle block (30_encoding R79). -/
theorem waitDone_of_idle {s : State} (hp : s.phase = .idle) :
    ∃ t, exec (.rd32 0x03) s = .next t ∧ waitDone t = true := by
  refine ⟨_, exec_rd32_regIndex .status s, ?_⟩
  show (!(statusWord s).getLsbD 0) = true
  rw [statusWord_getLsbD_zero, State.busy, hp]
  rfl

/-- Settles O41: the command stays pending until the engine's turn, which completes it. -/
theorem acceptedCommandCompletes : Obligations.AcceptedCommandCompletes := by
  intro s hl hp lawful
  obtain ⟨k, t, hk, ht, tl, tp, te, pendOp, same⟩ := run_to_engineNext hl hp lawful
  obtain ⟨u, hu, completed⟩ := commandDone_of_engineNext tl tp te
  obtain ⟨v, hv, polled⟩ := waitDone_of_idle completed.idle
  have data := (same.effect_congr t.pendOp).trans completed.data
  rw [pendOp] at data
  exact ⟨k, t, u, v, hk, ht, tp, hu, completed.idle, completed.done, data.ctrl.trans (effect_frame _ s).1, data.key,
    data.counter, data.digest, data.offset, data.binned, data.code, hv, polled⟩

/-! ### GEN and the stages -/

/-- Inputs that are no write, no engine's turn and no reset change the read data alone, and are taken. -/
theorem run_readsOnly_of_inbox {s : State} {l rest : List Input} (hl : Live s) (reads : ReadsOnly l)
    (hi : s.inbox = l ++ rest) : ∃ d, core.run l.length s = .next { s with inbox := rest, rdata := d } := by
  obtain ⟨d, h⟩ := run_readsOnly l rest s hl reads
  rw [← hi] at h
  exact ⟨d, h⟩

/-- A command from its acceptance to its completion, with inputs between and after that are no write (42_commands R132,
R140, R141). -/
theorem run_commandWith (o : Op) {s : State} {p q rest : List Input} (hl : Live s) (hp : s.phase = .idle)
    (hm : s.diagEn = true ∨ o = .gen ∨ o = .zeroize) (pending : ReadsOnly p) (after : ReadsOnly q)
    (hi : s.inbox = commandWith o p q ++ rest) :
    ∃ t, core.run (commandWith o p q).length s = .next t ∧ CommandDone o s rest t := by
  have inputs : s.inbox = .port (encode o.instr) :: (p ++ .engine :: (q ++ rest)) := by simp [hi, commandWith]
  have length : (commandWith o p q).length = p.length + (q.length + 1) + 1 := by simp [commandWith]
  have accepted : step s = .next { noAnswer (accept o s) with inbox := p ++ .engine :: (q ++ rest) } := by
    rw [step_port hl inputs, present_encode]
    exact exec_op_of_idle o _ hp hm
  obtain ⟨d, waited⟩ := run_readsOnly_of_inbox
    (s := { noAnswer (accept o s) with inbox := p ++ .engine :: (q ++ rest) }) hl pending rfl
  obtain ⟨t, completed, done⟩ := commandDone_of_engineNext
    (s := { noAnswer (accept o s) with inbox := .engine :: (q ++ rest), rdata := d }) hl rfl (.inl rfl)
  obtain ⟨d', followed⟩ := run_readsOnly_of_inbox done.live after done.inbox
  have operands : SameData s { noAnswer (accept o s) with inbox := .engine :: (q ++ rest), rdata := d } :=
    ⟨rfl, rfl, rfl, rfl, rfl, rfl, rfl⟩
  have kept : SameData t { t with inbox := rest, rdata := d' } := ⟨rfl, rfl, rfl, rfl, rfl, rfl, rfl⟩
  refine ⟨{ t with inbox := rest, rdata := d' }, ?_, done.live, done.idle, done.done, rfl,
    ((operands.effect_congr o).trans done.data).trans kept⟩
  rw [length, run_succ _ _ _ accepted, run_add _ _ _ _ waited, run_succ _ _ _ completed, followed]

/-- In diagnostic mode GEN is HASH, TRUNC and REDUCE one after another (42_commands R139). -/
theorem effect_gen_of_diagEn {s : State} (hd : s.diagEn = true) :
    effect .gen s = effect .reduce (effect .trunc (effect .hash s)) := by
  simp only [effect, completeGen_eq, hd, if_true]
  rfl

/-- The stage commands in order leave what GEN leaves. -/
theorem run_stages {s : State} {p₁ q₁ p₂ q₂ p₃ q₃ : List Input} (hl : Live s) (hp : s.phase = .idle)
    (hd : s.diagEn = true) (reads : ∀ l ∈ [p₁, q₁, p₂, q₂, p₃, q₃], ReadsOnly l)
    (hi : s.inbox = commandWith .hash p₁ q₁ ++ commandWith .trunc p₂ q₂ ++ commandWith .reduce p₃ q₃) :
    ∃ t, core.run s.inbox.length s = .next t ∧ CommandDone .gen s [] t := by
  obtain ⟨s₁, run₁, hash⟩ := run_commandWith .hash hl hp (.inl hd) (reads p₁ (by simp)) (reads q₁ (by simp))
    (hi.trans (List.append_assoc _ _ _))
  have hd₁ : s₁.diagEn = true := hash.data.diagEn.trans hd
  obtain ⟨s₂, run₂, trunc⟩ := run_commandWith .trunc hash.live hash.idle (.inl hd₁) (reads p₂ (by simp))
    (reads q₂ (by simp)) hash.inbox
  have hd₂ : s₂.diagEn = true := trunc.data.diagEn.trans hd₁
  obtain ⟨s₃, run₃, reduce⟩ := run_commandWith .reduce trunc.live trunc.idle (.inl hd₂) (reads p₃ (by simp))
    (reads q₃ (by simp)) (trunc.inbox.trans (List.append_nil _).symm)
  refine ⟨s₃, ?_, reduce.live, reduce.idle, reduce.done, reduce.inbox, ?_⟩
  · rw [hi, List.length_append, List.length_append, Nat.add_assoc, run_add _ _ _ _ run₁, run_add _ _ _ _ run₂, run₃]
  · rw [effect_gen_of_diagEn hd]
    exact (((hash.data.effect_congr .trunc).trans trunc.data).effect_congr .reduce).trans reduce.data

/-- Settles O52: both lists of inputs lead to what GEN's effect gives. -/
theorem stagesEqualGenWhateverIsRead : Obligations.StagesEqualGenWhateverIsRead := by
  intro s p₀ q₀ p₁ q₁ p₂ q₂ p₃ q₃ hl hp hd reads whole stages
  obtain ⟨t, runGen, gen⟩ := run_commandWith .gen (s := { s with inbox := whole }) hl hp (.inl hd)
    (reads p₀ (by simp)) (reads q₀ (by simp)) (List.append_nil _).symm
  obtain ⟨u, runStages, staged⟩ := run_stages (s := { s with inbox := stages }) hl hp hd
    (fun l hm => reads l (List.mem_cons_of_mem _ (List.mem_cons_of_mem _ hm))) rfl
  have same : SameData { s with inbox := stages } { s with inbox := whole } := ⟨rfl, rfl, rfl, rfl, rfl, rfl, rfl⟩
  have data := (same.effect_congr .gen).trans gen.data
  exact ⟨t, u, runGen, runStages, data.digest.trans staged.data.digest.symm, data.offset.trans staged.data.offset.symm,
    data.binned.trans staged.data.binned.symm, data.code.trans staged.data.code.symm, gen.idle, staged.idle, gen.done,
    staged.done⟩

/-- CODE after GEN, in every mode (41_truncate_reduce R119). -/
theorem effect_gen_code (s : State) : (effect .gen s).code = codeOf s.key s.counter := by
  rw [effect, completeGen_eq]
  rfl

/-- Settles O17: the schedule of O52 with no other input; in normal mode, GEN's CODE and the decoder. -/
theorem stagesEqualGen : Obligations.StagesEqualGen := by
  have nothing : ReadsOnly [] := nofun
  refine ⟨fun s hl hp hd => ?diagnostic, fun s hl hp _ => ?normal, fun o ho => ?illegal⟩
  case diagnostic =>
    exact stagesEqualGenWhateverIsRead s [] [] [] [] [] [] [] [] hl hp hd (by simpa using nothing)
  case normal =>
    obtain ⟨t, run, gen⟩ := run_commandWith .gen (s := { s with inbox := commandWith .gen [] [] }) hl hp
      (.inr (.inl rfl)) nothing nothing (List.append_nil _).symm
    exact ⟨t, run, gen.data.code.trans (effect_gen_code _)⟩
  case illegal => rcases ho with rfl | rfl | rfl <;> simp [decodeCmd_word]

end Sys2Proof.Machine
end

section
/-! PROOFS. The error model and the host's counter (60_exceptions): an idle block, a write and a completion at one clock
edge, and the derivation of the counter. -/

namespace Sys2Proof.Machine

/-! ### An idle block -/

/-- Settles O31, by the cases of a step: the engine's turn keeps an idle block, and a read, an idle cycle and a high
level of the pin change the read data at most. -/
theorem idleBlockDoesNothingWithoutAWrite : Obligations.IdleBlockDoesNothingWithoutAWrite := by
  intro s t hl hp hw hr h
  rcases step_cases s t hl h with ⟨e, rest, a, v, hi, he, -⟩ | ⟨e, rest, a, hi, -, -, rfl⟩ | ⟨rest, hi, rfl⟩ |
    ⟨rest, hi, rfl⟩ | ⟨rest, hi, rfl⟩ | ⟨rest, hi, -⟩ | ⟨hi, rfl⟩
  · simp [nextWrite, hi, he] at hw
  · rw [hi]; rfl
  · rw [hi]; rfl
  · rw [engineTurn_of_idle { s with inbox := rest } hp, hi]; rfl
  · rw [hi]; rfl
  · exact absurd (by simp [NextIsReset, hi]) hr
  · rw [engineTurn_of_idle (noAnswer s) hp, hi, List.tail_nil, ← hi]; rfl

/-! ### A write and a completion at one clock edge -/

/-- The error flags after a write while BUSY: ERR_BUSY is set by the refused indices, STATUS clears the chosen flags, and
ERR_CMD is never set (60_exceptions R173). -/
theorem memWrite_errFlags_of_busy (a : WordIndex) (v : Word) {s : State} (hp : s.phase = .busy) :
    (memWrite a v s).errBusy = (if a = 0x03 then s.errBusy && !v.getLsbD 3
      else s.errBusy || decide (a = 0x01 ∨ a = 0x02 ∨ a = 0x04 ∨ a = 0x05 ∨ (8 ≤ a.toNat ∧ a.toNat ≤ 0x19))) ∧
    (memWrite a v s).errCmd = (if a = 0x03 then s.errCmd && !v.getLsbD 2 else s.errCmd) := by
  obtain ⟨d, h⟩ := writesWhileBusySetErrBusyOnly s a v hp
  rw [exec_wr32, Host.Outcome.next.injEq] at h
  have errBusy := congrArg State.errBusy h
  have errCmd := congrArg State.errCmd h
  simp only [noAnswer_errBusy, noAnswer_errCmd] at errBusy errCmd
  rw [errBusy, errCmd]
  by_cases status : a = 0x03
  · subst status
    exact ⟨rfl, rfl⟩
  · rw [if_neg status, if_neg status, if_neg status]
    split_ifs with refused
    · exact ⟨by rw [decide_eq_true refused, Bool.or_true], rfl⟩
    · exact ⟨by rw [decide_eq_false refused, Bool.or_false], rfl⟩

/-- A write presented to a busy block is made while BUSY, and the command stays pending (60_exceptions R173). -/
theorem step_write_of_busy {s : State} {a : WordIndex} {v : Word} {rest : List Input} (hl : Live s)
    (hp : s.phase = .busy) (hi : s.inbox = .port (encode (.wr32 a v)) :: rest) :
    ∃ t, step s = .next t ∧ Live t ∧ t.phase = .busy ∧ t.inbox = rest ∧ t.errBusy = (memWrite a v s).errBusy ∧
      t.errCmd = (memWrite a v s).errCmd := by
  obtain ⟨done, errCmd, errBusy, pending⟩ := (memWrite_outcome a v s).flags_of_busy hp
  refine ⟨{ memWrite a v s with inbox := rest, rdata := none }, ?_, by rw [pending]; exact hl, by rw [pending]; exact hp,
    rfl, rfl, rfl⟩
  rw [step_port hl hi, present_encode, exec_wr32, memWrite_inbox]
  rfl

/-- Settles O40: the write leaves the command pending, and its completion keeps the error flags. -/
theorem writeThenCompletionAtOneEdge : Obligations.WriteThenCompletionAtOneEdge := by
  intro s a v rest hl hp hi
  obtain ⟨t, written, tl, tp, inbox, tErrBusy, tErrCmd⟩ := step_write_of_busy hl hp hi
  obtain ⟨d, completed⟩ := step_completes t.pendOp tl tp rfl (.inl (by rw [inbox]; rfl))
  obtain ⟨-, -, keepsErrCmd, keepsErrBusy, -⟩ := effect_frame t.pendOp t
  obtain ⟨errBusy, errCmd⟩ := memWrite_errFlags_of_busy a v hp
  exact ⟨_, (run_succ 1 s t written).trans (run_succ 0 t _ completed), rfl, rfl, congrArg List.tail inbox,
    keepsErrBusy.trans (tErrBusy.trans errBusy), keepsErrCmd.trans (tErrCmd.trans errCmd)⟩

/-! ### Counter derivation -/

/-- An interval of 0 is rejected before any other check (60_exceptions R181). -/
theorem deriveCounter_zero (now epoch : Rat) : deriveCounter now epoch 0 = .intervalError := if_pos rfl

section
variable {now epoch : Rat} {interval : Nat}

/-- An instant before the epoch gives no counter (60_exceptions R179). -/
theorem deriveCounter_of_before (hi : 0 < interval) (hb : now < epoch) :
    deriveCounter now epoch interval = .timeError := by
  rw [deriveCounter, if_neg hi.ne', if_pos hb]

theorem elapsed64_toNat {n : Nat} (h : n < 2 ^ 64) : (elapsed64 n).toNat = n := by
  rw [elapsed64, if_pos h, BitVec.toNat_ofNat, Nat.mod_eq_of_lt h]

/-- From the epoch on the counter is the elapsed whole seconds divided by the interval (60_exceptions R178). -/
theorem deriveCounter_of_fits (hi : 0 < interval) (he : epoch ≤ now) (hf : ⌊now - epoch⌋ < 2 ^ 64) :
    ∃ c, deriveCounter now epoch interval = .ok c ∧ (c.toNat : Int) = ⌊now - epoch⌋ / interval := by
  obtain ⟨n, hn⟩ := Int.eq_ofNat_of_zero_le (Int.floor_nonneg.2 (sub_nonneg.2 he))
  have fits : n < 2 ^ 64 := by omega
  have quotientFits : n / interval < 2 ^ 64 := (Nat.div_le_self n interval).trans_lt fits
  have seconds : (now - epoch).floor.toNat = n := congrArg Int.toNat hn
  refine ⟨BitVec.ofNat 64 (n / interval), ?_, ?_⟩
  · rw [deriveCounter, if_neg hi.ne', if_neg (not_lt.2 he), seconds, elapsed64_toNat fits]
  · rw [BitVec.toNat_ofNat, Nat.mod_eq_of_lt quotientFits, hn, Int.natCast_ediv]

end

/-- Settles O46: the checks in the spec's order; the floor of a quotient by a whole number is the quotient of the
floor. -/
theorem counterDerivation : Obligations.CounterDerivation := by
  intro now epoch interval
  refine ⟨deriveCounter_zero now epoch, deriveCounter_of_before, fun hi he hf => ?_⟩
  obtain ⟨c, hc, value⟩ := deriveCounter_of_fits hi he hf
  exact ⟨c, hc, value.trans (Int.floor_div_natCast _ _).symm⟩

/-- The quotient of a sum, by the quotient and the remainder of its first term (60_exceptions R180). -/
theorem add_ediv_eq_ediv_add_emod (e d : Int) {i : Int} (hi : i ≠ 0) : (e + d) / i = e / i + (e % i + d) / i := by
  calc (e + d) / i = (e % i + d + i * (e / i)) / i := by rw [add_right_comm, Int.emod_add_mul_ediv]
    _ = e / i + (e % i + d) / i := by rw [Int.add_mul_ediv_left _ _ hi, add_comm]

/-- Settles O47: the counter is the quotient of the elapsed whole seconds, of which each part is a fact about floors and
quotients. -/
theorem counterGrowsWithTime : Obligations.CounterGrowsWithTime := by
  intro now later epoch interval c hi he hle hf hc
  have mono : ⌊now - epoch⌋ ≤ ⌊later - epoch⌋ := Int.floor_le_floor (sub_le_sub_right hle epoch)
  have positive : (0 : Int) < interval := by exact_mod_cast hi
  obtain ⟨c₀, hc₀, value⟩ := deriveCounter_of_fits hi he (mono.trans_lt hf)
  obtain rfl : c₀ = c := CounterResult.ok.inj (hc₀.symm.trans hc)
  obtain ⟨c', hc', value'⟩ := deriveCounter_of_fits hi (he.trans hle) hf
  have grows : c₀.toNat ≤ c'.toNat := by
    have := Int.ediv_le_ediv positive mono
    omega
  refine ⟨c', hc', grows, fun sameWindow => ?window, fun d hd => ?increment⟩
  case window =>
    have elapsed : ⌊later - epoch⌋ < (c₀.toNat + 1 : Int) * interval := by
      rw [Int.floor_lt]
      push_cast
      linarith
    have := Int.ediv_lt_of_lt_mul positive elapsed
    exact BitVec.eq_of_toNat_eq (by omega)
  case increment =>
    have elapsed : ⌊later - epoch⌋ = ⌊now - epoch⌋ + d := by
      rw [hd, add_sub_right_comm, Int.floor_add_natCast]
    rw [value', elapsed, value]
    exact add_ediv_eq_ediv_add_emod _ _ positive.ne'

end Sys2Proof.Machine
end

section
/-! PROOFS. Reset and the hazards (70_reset_and_hazards): the reset pin, a run without reset, what changes KEY, reads
from acceptance to completion, and the boot order. -/

namespace Sys2Proof.Machine

/-! ### The reset pin -/

/-- The level of the pin takes effect in every state (70_reset R200; log 5). -/
theorem step_rst {s : State} {level : Bool} {rest : List Input} (hi : s.inbox = .rst level :: rest) :
    step s = .next (pinRst level { s with inbox := rest }) := by
  rw [step, hi, stepOn, takeInput]
  split_ifs <;> rfl

/-- Settles O50: a high level sets the pin alone. -/
theorem releasingTheResetPinChangesNoRegister : Obligations.ReleasingTheResetPinChangesNoRegister := by
  intro s hhead
  obtain ⟨rest, hi⟩ := List.head?_eq_some_iff.1 hhead
  exact ⟨s.rdata, by rw [step_rst hi, hi]; rfl⟩

/-- Whether an input presents a read at the port. -/
def Input.presentsRead : Input → Bool
  | .port b => isRead b
  | .request r => !r.write
  | .idle | .engine | .rst _ => false

/-- The transaction of a request is a read unless the request writes (20_memory R51). -/
theorem isRead_requestInstr (r : HostRequest) : isRead (encode (requestInstr r)) = !r.write := by
  have direction (we : Bool) (a : WordIndex) (v : Word) : (busBits we a v).getLsbD 38 = we := by
    rw [getLsbD_busBits]
    cases we <;> rfl
  unfold requestInstr
  cases r.write with
  | true => rw [if_pos rfl, encode, isRead, direction]
  | false => rw [if_neg Bool.false_ne_true, encode, isRead, direction]

/-- A transaction while the pin is low, as one update (70_reset R200). -/
theorem presentInReset_eq (b : BusWord) (s : State) :
    presentInReset b s = { takeReset s with rdata := if isRead b then some 0 else none } := by
  unfold presentInReset
  split <;> rfl

/-- While the pin is low an input takes reset, and a read answers 0 (70_reset R200). -/
theorem inReset_takes_reset {e : Input} {s : State} (low : s.rstN = false) (lawful : e.lawful = true)
    (held : e ≠ .rst true) :
    inReset e s = .next { takeReset s with rdata := if e.presentsRead then some 0 else none } := by
  cases e with
  | port b => rw [inReset, presentInReset_eq]; rfl
  | request r => rw [inReset, request_of_wf r _ lawful, presentInReset_eq, isRead_requestInstr]; rfl
  | idle | engine => rfl
  | rst level =>
    obtain rfl : level = false := by simpa using held
    have unchanged : { s with rstN := false } = s := by rw [← low]
    rw [inReset, pinRst, if_neg Bool.false_ne_true, unchanged]
    rfl

/-- A step that finds the pin low, or lowers it, takes reset (70_reset R200; log 5). -/
theorem step_takes_reset {s : State}
    (low : NextIsReset s ∨
      (s.rstN = false ∧ ∀ e, s.inbox.head? = some e → e.lawful = true ∧ e ≠ .rst true)) :
    step s = .next { takeReset { s with inbox := s.inbox.tail, rstN := false } with
      rdata := if s.inbox.head?.any Input.presentsRead then some 0 else none } := by
  rcases low with falls | ⟨low, inputs⟩
  · obtain ⟨rest, hi⟩ := List.head?_eq_some_iff.1 falls
    rw [step_rst hi, hi]
    rfl
  · cases hi : s.inbox with
    | nil =>
      have quietly : step s = .next (takeReset s) := by simp [step, hi, stepOn, quiet, low]
      have unchanged : s = { s with inbox := [], rstN := false } := by rw [← low, ← hi]
      exact quietly.trans (congrArg (Host.Outcome.next ∘ takeReset) unchanged)
    | cons e rest =>
      obtain ⟨lawful, held⟩ := inputs e (by rw [hi]; rfl)
      have taken : step s = inReset e { s with inbox := rest } := by simp [step, hi, stepOn, takeInput, low]
      have unchanged : { s with inbox := rest } = { s with inbox := rest, rstN := false } := by rw [← low]
      rw [taken, unchanged]
      exact inReset_takes_reset rfl lawful held

/-- STATUS reads 0 after reset, whatever the port then holds (70_reset R200). -/
theorem statusWord_takeReset (s : State) (d : Option Word) : statusWord { takeReset s with rdata := d } = 0 := by
  change (0#28 ++ BitVec.ofBool false ++ BitVec.ofBool false ++ BitVec.ofBool false ++ BitVec.ofBool false : Word) = 0
  decide

/-- Settles O7: the state after reset, in which only a read has answered, and it answered 0. -/
theorem resetPinLowResetsEveryRegister : Obligations.ResetPinLowResetsEveryRegister := by
  intro s low
  refine ⟨_, step_takes_reset low, rfl, rfl, rfl, statusWord_takeReset _ _, rfl, rfl, rfl, rfl, rfl, rfl, rfl,
    Bool.and_false _, fun w hw read => ?port, fun r hr read => ?request⟩
  case port =>
    have presents : isRead (.bus39 w) = true := by rw [isRead, read]; rfl
    simp [hw, Input.presentsRead, presents]
  case request => simp [hr, Input.presentsRead, read]

/-- Settles O8: with `rst_n` high, a block never reset takes the input of the pin alone. -/
theorem launchWithoutResetIsRefused : Obligations.LaunchWithoutResetIsRefused := by
  intro s never high other
  cases hi : s.inbox with
  | nil => simp [step, hi, stepOn, quiet, high, never]
  | cons e rest =>
    have before : step s = beforeReset e { s with inbox := rest } := by
      simp [step, hi, stepOn, takeInput, high, never]
    rw [before]
    cases e with
    | rst level => exact absurd (by rw [hi]; rfl) (other level)
    | _ => rfl

/-! ### What changes KEY -/

@[simp] theorem writeCtrl_key (v : Word) (s : State) : (writeCtrl v s).key = s.key := by
  unfold writeCtrl; split <;> rfl

/-- A write changes KEY at the indices of KEY alone, while IDLE (10_state R29). -/
theorem WriteOutcome.key_of_key_ne {a : WordIndex} {v : Word} {s u : State} (h : WriteOutcome a v s u)
    (hne : u.key ≠ s.key) : s.phase = .idle ∧ 8 ≤ a.toNat ∧ a.toNat ≤ 15 := by
  cases h with
  | key hp ha k => exact ⟨hp, ha⟩
  | _ => simp at hne

/-- Settles O36, by the cases of a step: of the completions ZEROIZE alone writes KEY. -/
theorem keyPersists : Obligations.KeyPersists := by
  intro s t hl h hne
  cases step_outcome hl h with
  | write rest hw ho =>
    obtain ⟨hp, ha⟩ := ho.key_of_key_ne hne
    exact .inl ⟨hp, _, _, hw, ha⟩
  | keep => exact absurd rfl hne
  | complete rest d hw hp =>
    have hz : s.pendOp = .zeroize := by
      by_contra hz
      simp [effect_operands, hz] at hne
    exact .inr (.inl ⟨hp, hz, rfl, by simp [effect_operands, hz]⟩)
  | reset hr => exact .inr (.inr hr)

/-! ### Reads from acceptance to completion -/

/-- Every register but STATUS reads as these registers say (20_memory R56). -/
theorem SameData.readReg_eq {s t : State} (h : SameData s t) {r : Reg} (hr : r ≠ .status) :
    readReg r t = readReg r s := by
  obtain ⟨ctrl, key, counter, digest, offset, binned, code⟩ := id h
  cases r with
  | status => exact absurd rfl hr
  | _ => simp [readReg, ctrlWord, h.diagEn, *]

theorem SameData.memRead_eq {s t : State} (h : SameData s t) {a : WordIndex} (ha : a ≠ 0x03) :
    memRead a t = memRead a s := by
  cases hr : regAt a with
  | none => rw [memRead_of_regAt_none t hr, memRead_of_regAt_none s hr]
  | some r =>
    obtain rfl := regIndex_of_regAt a r hr
    rw [memRead_regIndex, memRead_regIndex, h.readReg_eq fun hs => ha (by rw [hs]; rfl)]

/-- A command that leaves an idle block busy has been accepted (42_commands R132, R150). -/
theorem accepted_of_exec_busy {s t : State} {o : Op} (hp : s.phase = .idle) (h : exec o.instr s = .next t)
    (ht : t.phase = .busy) : t = noAnswer (accept o s) := by
  by_cases hm : s.diagEn = true ∨ o = .gen ∨ o = .zeroize
  · exact Host.Outcome.next.inj (h.symm.trans (exec_op_of_idle o s hp hm))
  · obtain rfl := Host.Outcome.next.inj (h.symm.trans (exec_op_of_idle_illegal o s hp hm))
    simp [hp] at ht

/-- Without reset and the engine's turn a pending command stays pending, with its registers as they were (42_commands
R140, R141). -/
theorem run_stays_busy {s : State} {l rest : List Input} (hl : l ≠ [] → Live s) (hp : s.phase = .busy)
    (inputs : ∀ e ∈ l, e.lawful = true ∧ e ≠ .engine) (hi : s.inbox = l ++ rest) :
    ∃ t, core.run l.length s = .next t ∧ t.inbox = rest ∧ t.phase = .busy ∧ SameData s t := by
  induction l generalizing s with
  | nil => exact ⟨s, rfl, hi, hp, .refl s⟩
  | cons e l ih =>
    have live : Live s := hl (List.cons_ne_nil e l)
    obtain ⟨lawful, other⟩ := inputs e List.mem_cons_self
    obtain ⟨t, ht, htp⟩ := step_stays_busy live hp hi lawful other
    obtain ⟨frame, -⟩ := busyBlockKeepsItsRegisters s t live hp ht htp
    have same : SameData s t := by rw [frame]; exact ⟨rfl, rfl, rfl, rfl, rfl, rfl, rfl⟩
    obtain ⟨u, hu, inbox, up, data⟩ := ih (s := t) (fun _ => by rw [frame]; exact live) htp
      (fun e' he' => inputs e' (List.mem_cons_of_mem e he')) (by rw [frame, hi]; rfl)
    exact ⟨u, (run_succ _ s t ht).trans hu, inbox, up, same.trans data⟩

/-- Settles O28: acceptance and every input before completion keep the registers a read shows. -/
theorem readsWhileBusyAreOfBeforeTheCommand : Obligations.ReadsWhileBusyAreOfBeforeTheCommand := by
  intro s t o l rest a hl hp h ht inputs ha
  obtain rfl := accepted_of_exec_busy hp h ht
  obtain ⟨u, run, inbox, up, data⟩ := run_stays_busy (s := { noAnswer (accept o s) with inbox := l ++ rest }) hl rfl
    inputs rfl
  have accepted : SameData s { noAnswer (accept o s) with inbox := l ++ rest } := ⟨rfl, rfl, rfl, rfl, rfl, rfl, rfl⟩
  exact ⟨u, _, _, memRead a s, run, inbox, up, exec_rd32 a s, exec_rd32 a u, rfl,
    congrArg some ((accepted.trans data).memRead_eq ha)⟩

/-! ### The boot order -/

/-- The writes of the boot order, one after another, once both sources have answered (70_reset R203; log 11). -/
theorem bootProgram_ok (k : Vector Byte 32) (c : Quad) (ack : Bool) (ctrl : Option Word) :
    bootProgram (.ok k) (.ok c) ack ctrl =
      some ((Pseudo.wrkey k).expand ++ (Pseudo.wrctr c).expand ++ (if ack then Pseudo.ack.expand else []) ++
        ctrl.toList.map (wr .ctrl) ++ (Pseudo.cmd .gen).expand) := by
  cases ctrl <;> rfl

/-- A running idle block with this KEY and COUNTER and these error flags. -/
structure IdleWith (key : Wide) (counter : Quad) (errCmd errBusy : Bool) (s : State) : Prop where
  live : Live s
  idle : s.phase = .idle
  key : s.key = key
  counter : s.counter = counter
  errCmd : s.errCmd = errCmd
  errBusy : s.errBusy = errBusy

namespace IdleWith

variable {key : Wide} {counter : Quad} {errCmd errBusy : Bool} {s : State}

/-- A write of KEYi while IDLE (42_commands R155). -/
theorem after_wr_key (h : IdleWith key counter errCmd errBusy s) (i : BitVec 3) (v : Word) :
    IdleWith (setWord key i v) counter errCmd errBusy (after s (wr (.key i) v)) := by
  rw [after_wr, writeReg, whileIdle_of_idle _ s h.idle]
  exact ⟨h.live, h.idle, congrArg (setWord · i v) h.key, h.counter, h.errCmd, h.errBusy⟩

/-- `wrkey` leaves the 32 bytes in KEY, whatever it held (30_encoding R79). -/
theorem after_wrkey (h : IdleWith key counter errCmd errBusy s) (k : Vector Byte 32) :
    IdleWith (wideOfBytes k) counter errCmd errBusy ((Pseudo.wrkey k).expand.foldl after s) := by
  have written := h |>.after_wr_key 0 (packWord k 0) |>.after_wr_key 1 (packWord k 1)
    |>.after_wr_key 2 (packWord k 2) |>.after_wr_key 3 (packWord k 3) |>.after_wr_key 4 (packWord k 4)
    |>.after_wr_key 5 (packWord k 5) |>.after_wr_key 6 (packWord k 6) |>.after_wr_key 7 (packWord k 7)
  refine (wide_ext _ _ fun i => ?_ : _ = wideOfBytes k) ▸ written
  have words : i = 0 ∨ i = 1 ∨ i = 2 ∨ i = 3 ∨ i = 4 ∨ i = 5 ∨ i = 6 ∨ i = 7 := by revert i; decide
  simp only [wordOf_wideOfBytes, wordOf_setWord]
  rcases words with rfl | rfl | rfl | rfl | rfl | rfl | rfl | rfl <;> rfl

/-- `wrctr` leaves the value in COUNTER, its low half written first (30_encoding R79). -/
theorem after_wrctr (h : IdleWith key counter errCmd errBusy s) (c : Quad) :
    IdleWith key c errCmd errBusy ((Pseudo.wrctr c).expand.foldl after s) := by
  have low : after s (wr .ctrLo (lo c)) = noAnswer (writeCtrLo (lo c) s) := by
    rw [after_wr, writeReg, whileIdle_of_idle _ s h.idle]
  have high : after (noAnswer (writeCtrLo (lo c) s)) (wr .ctrHi (hi c)) =
      noAnswer (writeCtrHi (hi c) (noAnswer (writeCtrLo (lo c) s))) := by
    rw [after_wr, writeReg, whileIdle_of_idle _ (noAnswer (writeCtrLo (lo c) s)) h.idle]
  simp only [Pseudo.expand, List.foldl_cons, List.foldl_nil, low, high]
  exact ⟨h.live, h.idle, h.key, by simp, h.errCmd, h.errBusy⟩

/-- `ack` clears both error flags (30_encoding R79, 42_commands R158). -/
theorem after_ack (h : IdleWith key counter errCmd errBusy s) (ack : Bool) :
    IdleWith key counter (errCmd && !ack) (errBusy && !ack)
      ((if ack then Pseudo.ack.expand else []).foldl after s) := by
  cases ack with
  | false => simpa using h
  | true =>
    simp only [if_true, Pseudo.expand, List.foldl_cons, List.foldl_nil, after_wr]
    exact ⟨h.live, h.idle, h.key, h.counter, by simp [writeReg], by simp [writeReg]⟩

/-- A write of CTRL, if there is one, leaves the operands and the error flags (42_commands R153). -/
theorem after_ctrl (h : IdleWith key counter errCmd errBusy s) (ctrl : Option Word) :
    IdleWith key counter errCmd errBusy ((ctrl.toList.map (wr .ctrl)).foldl after s) := by
  cases ctrl with
  | none => exact h
  | some v =>
    simp only [Option.toList_some, List.map_cons, List.map_nil, List.foldl_cons, List.foldl_nil, after_wr, writeReg,
      whileIdle_of_idle _ s h.idle, writeCtrl_eq]
    split <;> exact ⟨h.live, h.idle, h.key, h.counter, h.errCmd, h.errBusy⟩

/-- `cmd GEN` is accepted in every mode (42_commands R134). -/
theorem after_gen (h : IdleWith key counter errCmd errBusy s) :
    (Pseudo.cmd .gen).expand.foldl after s = noAnswer (accept .gen s) := by
  rw [Pseudo.expand, List.foldl_cons, List.foldl_nil, after_wr, writeReg, writeCmd, whileIdle_of_idle _ s h.idle,
    dispatchCmd, decodeCmd_word, if_pos (.inr (.inl rfl))]

/-- The completion of GEN leaves the code of KEY and COUNTER, and both as they were (42_commands R134). -/
theorem step_completes_gen (h : IdleWith key counter errCmd errBusy s) (rest : List Input) :
    ∃ t, step { noAnswer (accept .gen s) with inbox := .engine :: rest } = .next t ∧
      IdleWith key counter errCmd errBusy t ∧ t.inbox = rest ∧ t.done = true ∧ t.code = codeOf key counter := by
  obtain ⟨live, -, rfl, rfl, rfl, rfl⟩ := h
  obtain ⟨d, completed⟩ := step_completes .gen (s := { noAnswer (accept .gen s) with inbox := .engine :: rest }) live
    rfl rfl (.inl rfl)
  refine ⟨_, completed, ⟨?live, rfl, ?key, ?counter, ?errCmd, ?errBusy⟩, rfl, rfl, effect_gen_code _⟩
  case live => simpa [Live, effect_frame] using live
  case key => simp [effect_operands]
  case counter => simp [effect_operands]
  case errCmd => simp [effect_frame]
  case errBusy => simp [effect_frame]

end IdleWith

/-- Settles O49: the writes put the operands in place and GEN is accepted; its completion leaves the code. -/
theorem bootOrderYieldsTheCode : Obligations.BootOrderYieldsTheCode := by
  refine ⟨fun _ _ _ => rfl, fun _ _ _ => ⟨rfl, rfl⟩, fun s k c ack ctrl rest hl hp => ?_⟩
  have idle : IdleWith s.key s.counter s.errCmd s.errBusy s := ⟨hl, hp, rfl, rfl, rfl, rfl⟩
  have ready := idle |>.after_wrkey k |>.after_wrctr c |>.after_ack ack |>.after_ctrl ctrl
  simp only [← List.foldl_append] at ready
  obtain ⟨u, completed, boot, inbox, done, code⟩ := ready.step_completes_gen rest
  refine ⟨_, u, bootProgram_ok k c ack ctrl, ?run, inbox, boot.idle, done, boot.errCmd, boot.errBusy, boot.counter,
    fun j => ?key, ?code⟩
  case run =>
    rw [run_presented _ s _ 1 hl, List.foldl_append, ready.after_gen, run_succ 0 _ _ completed, run_zero]
  case key => rw [boot.key]; exact byteOf_wideOfBytes k j j.isLt
  case code => rw [code, boot.key]

end Sys2Proof.Machine
end
